-- ==== Sys2Proof/Word.lean ====
section
/-! DEFINITION. The word types of the core: bytes, 16-bit words, and the field widths of an instruction word
(10_state.md R20, 30_encoding.md R65). -/

namespace Sys2Proof

/-- One byte of memory, one general register, one timer (R20, R45). -/
abbrev Byte := BitVec 8

/-- One instruction word, and the width of PC, I and a stack entry (R20, R27, R64). -/
abbrev Word := BitVec 16

/-- A register index: field x or y of an instruction word; also a key number 0x0..0xF (R34, R65). -/
abbrev RegIx := BitVec 4

/-- A 4-bit count or sub-opcode: field n of an instruction word (R65). -/
abbrev Nibble := BitVec 4

/-- A 12-bit address: field nnn of an instruction word (R65). -/
abbrev Addr12 := BitVec 12

end Sys2Proof
end

