-- ==== Sys2Proof/Config.lean ====
section
/-! DEFINITION. What is fixed for this hardware (00_scope.md R7), and the free values: what the spec leaves open and
nothing in the model may know (constants without a body). -/

namespace Sys2Proof.Config

/-- MEM_SIZE, in bytes (R7). -/
def memSize : Nat := 4096

/-- PROGRAM_ORIGIN: where the image is loaded and execution starts (R7, R41). -/
def programOrigin : Nat := 0x200

/-- MAX_PROGRAM, in bytes (R7, R144). -/
def maxProgram : Nat := 3584

/-- FONT_BASE: the address of glyph 0 (R7, R51). -/
def fontBase : Nat := 0x000

/-- FONT_GLYPH_BYTES (R7). -/
def fontGlyphBytes : Nat := 5

/-- SHIFT_USES_VY: 8XY6 and 8XYE shift VX in place on this hardware (R7, R100, R102). -/
def shiftUsesVy : Bool := false

/-- LOADSTORE_INCREMENTS_I: FX55 and FX65 leave I unchanged on this hardware (R7, R26). -/
def loadStoreIncrementsI : Bool := false

/-- JUMP_OFFSET_USES_VX: BNNN adds V0 on this hardware (R7, R104). -/
def jumpOffsetUsesVx : Bool := false

/-- STRICT_9XY0: 0x9XYN with N ≠ 0 is Invalid on this hardware (R7, R72). -/
def strict9xy0 : Bool := true

/-- FONT_INDEX_MASK: none on this hardware, FX29 uses the full 8-bit VX (R7, R118). -/
def fontIndexMask : Option Byte := none

/-- Glyphs 0 to 3 of FONT (R51). -/
def font0 : List Byte :=
  [0xF0, 0x90, 0x90, 0x90, 0xF0, 0x20, 0x60, 0x20, 0x20, 0x70, 0xF0, 0x10, 0xF0, 0x80, 0xF0, 0xF0, 0x10, 0xF0, 0x10, 0xF0]

/-- Glyphs 4 to 7 of FONT (R51). -/
def font4 : List Byte :=
  [0x90, 0x90, 0xF0, 0x10, 0x10, 0xF0, 0x80, 0xF0, 0x10, 0xF0, 0xF0, 0x80, 0xF0, 0x90, 0xF0, 0xF0, 0x10, 0x20, 0x40, 0x40]

/-- Glyphs 8 to B of FONT (R51). -/
def font8 : List Byte :=
  [0xF0, 0x90, 0xF0, 0x90, 0xF0, 0xF0, 0x90, 0xF0, 0x10, 0xF0, 0xF0, 0x90, 0xF0, 0x90, 0x90, 0xE0, 0x90, 0xE0, 0x90, 0xE0]

/-- Glyphs C to F of FONT (R51). -/
def fontC : List Byte :=
  [0xF0, 0x80, 0x80, 0x80, 0xF0, 0xE0, 0x90, 0x90, 0x90, 0xE0, 0xF0, 0x80, 0xF0, 0x80, 0xF0, 0xF0, 0x80, 0xF0, 0x80, 0x80]

/-- FONT: sixteen glyphs of five bytes, glyph g at offset 5g, top row first (R51). -/
def font : List Byte := font0 ++ font4 ++ font8 ++ fontC

/-- The tick period TICK_NS = 10^9 / 60 ns, in units of 1/60 ns: exactly 10^9 of them (R38, R137). -/
def tick60 : Nat := 1000000000

/-- DEFAULT_RATE less one: OPEN in the spec, so without a body; the rate itself is positive (R136; log 11). -/
opaque freeDefaultRatePred : Nat

/-- DEFAULT_RATE, a positive integer of which nothing else is known (R7, R136). -/
def defaultRate : Nat := freeDefaultRatePred + 1

/-- The instruction-rate argument a session was started with, if one was given: a run-time argument (R7; log 11). -/
opaque freeRateArg : Option Nat

/-- INSTR_RATE: the argument, or DEFAULT_RATE "if omitted or zero" (R136). -/
def resolveRate : Option Nat → Nat
  | some (n + 1) => n + 1
  | some 0 => defaultRate
  | none => defaultRate

/-- CYCLE_US = 1000000 div INSTR_RATE (R136). -/
def cycleUs (rate : Nat) : Nat := 1000000 / rate

/-- The byte on port `rnd` at the n-th poll, where the input list does not give one: any value (R105; log 5). -/
opaque freeRnd : Nat → Byte

/-- The host's own time, in ns, beside the sleep of the n-th loop iteration, where the input list does not give the
elapsed time: any value (R138; log 6). -/
opaque freeHostNs : Nat → Nat

/-- The elapsed time of the n-th loop iteration, where the input list does not give it: "at least the sleep, plus
whatever the host takes" (R136, R138). -/
def freeElapsedNs (n : Nat) : Nat := 1000 * cycleUs (resolveRate freeRateArg) + freeHostNs n

end Sys2Proof.Config
end

