-- ==== Sys2Proof/Syntax.lean ====
section
/-! DEFINITION. The 34 instructions, one constructor per row of spec/opcode_table.json, in the table's order
(30_encoding.md R77). Register, address and immediate fields have the widths of R65. -/

namespace Sys2Proof

/-- One instruction with its fields (R77). -/
inductive Instr where
  /-- 00E0 CLS (R83). -/
  | cls
  /-- 00EE RET (R84). -/
  | ret
  /-- 1NNN JP NNN (R85). -/
  | jpNnn (nnn : Addr12)
  /-- 2NNN CALL NNN (R86). -/
  | callNnn (nnn : Addr12)
  /-- 3XNN SE VX, NN (R87). -/
  | seVxNn (x : RegIx) (nn : Byte)
  /-- 4XNN SNE VX, NN (R88). -/
  | sneVxNn (x : RegIx) (nn : Byte)
  /-- 5XYN SE VX, VY; the low nibble n is ignored and kept (R70, R89). -/
  | seVxVy (x y : RegIx) (n : Nibble)
  /-- 6XNN LD VX, NN (R92). -/
  | ldVxNn (x : RegIx) (nn : Byte)
  /-- 7XNN ADD VX, NN (R93). -/
  | addVxNn (x : RegIx) (nn : Byte)
  /-- 8XY0 LD VX, VY (R94). -/
  | ldVxVy (x y : RegIx)
  /-- 8XY1 OR VX, VY (R95). -/
  | orVxVy (x y : RegIx)
  /-- 8XY2 AND VX, VY (R96). -/
  | andVxVy (x y : RegIx)
  /-- 8XY3 XOR VX, VY (R97). -/
  | xorVxVy (x y : RegIx)
  /-- 8XY4 ADD VX, VY (R98). -/
  | addVxVy (x y : RegIx)
  /-- 8XY5 SUB VX, VY (R99). -/
  | subVxVy (x y : RegIx)
  /-- 8XY6 SHR VX; y is decoded and used only where SHIFT_USES_VY holds (R100). -/
  | shrVx (x y : RegIx)
  /-- 8XY7 SUBN VX, VY (R101). -/
  | subnVxVy (x y : RegIx)
  /-- 8XYE SHL VX; y as in SHR (R102). -/
  | shlVx (x y : RegIx)
  /-- 9XY0 SNE VX, VY; the low nibble n is 0 where STRICT_9XY0 holds, as WellFormed checks (R72, R90). -/
  | sneVxVy (x y : RegIx) (n : Nibble)
  /-- ANNN LD I, NNN (R103). -/
  | ldINnn (nnn : Addr12)
  /-- BNNN JP V0, NNN (R104). -/
  | jpV0Nnn (nnn : Addr12)
  /-- CXNN RND VX, NN (R105). -/
  | rndVxNn (x : RegIx) (nn : Byte)
  /-- DXYN DRW VX, VY, N (R106). -/
  | drwVxVyN (x y : RegIx) (n : Nibble)
  /-- EX9E SKP VX (R111). -/
  | skpVx (x : RegIx)
  /-- EXA1 SKNP VX (R112). -/
  | sknpVx (x : RegIx)
  /-- FX07 LD VX, DT (R113). -/
  | ldVxDt (x : RegIx)
  /-- FX0A LD VX, K (R114). -/
  | ldVxK (x : RegIx)
  /-- FX15 LD DT, VX (R115). -/
  | ldDtVx (x : RegIx)
  /-- FX18 LD ST, VX (R116). -/
  | ldStVx (x : RegIx)
  /-- FX1E ADD I, VX (R117). -/
  | addIVx (x : RegIx)
  /-- FX29 LD F, VX (R118). -/
  | ldFVx (x : RegIx)
  /-- FX33 LD B, VX (R119). -/
  | ldBVx (x : RegIx)
  /-- FX55 LD [I], VX (R120). -/
  | ldMemVx (x : RegIx)
  /-- FX65 LD VX, [I] (R121). -/
  | ldVxMem (x : RegIx)
deriving DecidableEq, Repr

end Sys2Proof
end

