-- ==== Sys2Proof/WellFormed.lean ====
section
/-! DEFINITION. Which terms of Instr are instructions of this hardware. The field widths are in the types; the one
check that is left is the strict low nibble of family 9 (30_encoding.md R72). -/

namespace Sys2Proof

/-- 0x9XYN is an instruction for N = 0, and for every N where STRICT_9XY0 is false (R72). -/
def nibble9Allowed (n : Nibble) : Bool := !Config.strict9xy0 || n == 0

/-- The terms that some instruction word stands for. -/
def Instr.wellFormed : Instr → Bool
  | .sneVxVy _ _ n => nibble9Allowed n
  | .cls | .ret | .jpNnn _ | .callNnn _ | .seVxNn _ _ | .sneVxNn _ _ | .seVxVy _ _ _ => true
  | .ldVxNn _ _ | .addVxNn _ _ | .ldVxVy _ _ | .orVxVy _ _ | .andVxVy _ _ | .xorVxVy _ _ => true
  | .addVxVy _ _ | .subVxVy _ _ | .shrVx _ _ | .subnVxVy _ _ | .shlVx _ _ => true
  | .ldINnn _ | .jpV0Nnn _ | .rndVxNn _ _ | .drwVxVyN _ _ _ | .skpVx _ | .sknpVx _ => true
  | .ldVxDt _ | .ldVxK _ | .ldDtVx _ | .ldStVx _ | .addIVx _ | .ldFVx _ => true
  | .ldBVx _ | .ldMemVx _ | .ldVxMem _ => true

end Sys2Proof
end

