-- ==== Sys2Proof/Decode.lean ====
section
/-! DEFINITION. The decoder, from a word and from bytes, rejecting by name; the encoder; the opcode table's rows
(30_encoding.md R64–R77). -/

namespace Sys2Proof

/-! ### Fields of an instruction word (R65, R66) -/

/-- Field op: w[15:12]. -/
def fieldOp (w : Word) : Nibble := w.extractLsb' 12 4

/-- Field x: w[11:8]. -/
def fieldX (w : Word) : RegIx := w.extractLsb' 8 4

/-- Field y: w[7:4]. -/
def fieldY (w : Word) : RegIx := w.extractLsb' 4 4

/-- Field n: w[3:0]. -/
def fieldN (w : Word) : Nibble := w.extractLsb' 0 4

/-- Field nn: w[7:0]. -/
def fieldNn (w : Word) : Byte := w.extractLsb' 0 8

/-- Field nnn: w[11:0]. -/
def fieldNnn (w : Word) : Addr12 := w.extractLsb' 0 12

/-! ### Decoding -/

/-- Why bytes are not an instruction. -/
inductive DecodeError where
  /-- Fewer than two bytes: every instruction is one 16-bit word (R64). -/
  | truncated
  /-- Family 0 and neither 0x00E0 nor 0x00EE (R69). -/
  | family0 (w : Word)
  /-- Family 8 with an unknown low nibble (R71). -/
  | family8 (n : Nibble)
  /-- Family 9 with a low nibble that STRICT_9XY0 excludes (R72). -/
  | family9 (n : Nibble)
  /-- Family E with an unknown low byte (R73). -/
  | familyE (nn : Byte)
  /-- Family F with an unknown low byte (R74). -/
  | familyF (nn : Byte)
deriving DecidableEq, Repr

/-- Family 0, matched on the whole word (R69). -/
def decode0 (w : Word) : Except DecodeError Instr :=
  if w = 0x00E0 then .ok .cls
  else if w = 0x00EE then .ok .ret
  else .error (.family0 w)

/-- Family 8, selected by n (R71). -/
def decode8 (w : Word) : Except DecodeError Instr :=
  match (fieldN w).toNat with
  | 0x0 => .ok (.ldVxVy (fieldX w) (fieldY w))
  | 0x1 => .ok (.orVxVy (fieldX w) (fieldY w))
  | 0x2 => .ok (.andVxVy (fieldX w) (fieldY w))
  | 0x3 => .ok (.xorVxVy (fieldX w) (fieldY w))
  | 0x4 => .ok (.addVxVy (fieldX w) (fieldY w))
  | 0x5 => .ok (.subVxVy (fieldX w) (fieldY w))
  | 0x6 => .ok (.shrVx (fieldX w) (fieldY w))
  | 0x7 => .ok (.subnVxVy (fieldX w) (fieldY w))
  | 0xE => .ok (.shlVx (fieldX w) (fieldY w))
  | _ => .error (.family8 (fieldN w))

/-- Family 9: strict on the low nibble on this hardware (R72). -/
def decode9 (w : Word) : Except DecodeError Instr :=
  if nibble9Allowed (fieldN w) then .ok (.sneVxVy (fieldX w) (fieldY w) (fieldN w))
  else .error (.family9 (fieldN w))

/-- Family E, selected by nn (R73). -/
def decodeE (w : Word) : Except DecodeError Instr :=
  if fieldNn w = 0x9E then .ok (.skpVx (fieldX w))
  else if fieldNn w = 0xA1 then .ok (.sknpVx (fieldX w))
  else .error (.familyE (fieldNn w))

/-- Family F, selected by nn (R74). -/
def decodeF (w : Word) : Except DecodeError Instr :=
  if fieldNn w = 0x07 then .ok (.ldVxDt (fieldX w))
  else if fieldNn w = 0x0A then .ok (.ldVxK (fieldX w))
  else if fieldNn w = 0x15 then .ok (.ldDtVx (fieldX w))
  else if fieldNn w = 0x18 then .ok (.ldStVx (fieldX w))
  else if fieldNn w = 0x1E then .ok (.addIVx (fieldX w))
  else if fieldNn w = 0x29 then .ok (.ldFVx (fieldX w))
  else if fieldNn w = 0x33 then .ok (.ldBVx (fieldX w))
  else if fieldNn w = 0x55 then .ok (.ldMemVx (fieldX w))
  else if fieldNn w = 0x65 then .ok (.ldVxMem (fieldX w))
  else .error (.familyF (fieldNn w))

/-- Decoding of one instruction word: total, dispatching on op and then on the family's sub-opcode (R68). -/
def decodeWord (w : Word) : Except DecodeError Instr :=
  match (fieldOp w).toNat with
  | 0x0 => decode0 w
  | 0x1 => .ok (.jpNnn (fieldNnn w))
  | 0x2 => .ok (.callNnn (fieldNnn w))
  | 0x3 => .ok (.seVxNn (fieldX w) (fieldNn w))
  | 0x4 => .ok (.sneVxNn (fieldX w) (fieldNn w))
  | 0x5 => .ok (.seVxVy (fieldX w) (fieldY w) (fieldN w))
  | 0x6 => .ok (.ldVxNn (fieldX w) (fieldNn w))
  | 0x7 => .ok (.addVxNn (fieldX w) (fieldNn w))
  | 0x8 => decode8 w
  | 0x9 => decode9 w
  | 0xA => .ok (.ldINnn (fieldNnn w))
  | 0xB => .ok (.jpV0Nnn (fieldNnn w))
  | 0xC => .ok (.rndVxNn (fieldX w) (fieldNn w))
  | 0xD => .ok (.drwVxVyN (fieldX w) (fieldY w) (fieldN w))
  | 0xE => decodeE w
  | _ => decodeF w

/-- The word of two bytes as the hardware stores them: the byte at the lower address is bits 15:8 (R47). -/
def wordOfBytes (hi lo : Byte) : Word := hi ++ lo

/-- The byte of a word at the lower address (R47). -/
def highByte (w : Word) : Byte := w.extractLsb' 8 8

/-- The byte of a word at the higher address (R47). -/
def lowByte (w : Word) : Byte := w.extractLsb' 0 8

/-- Decoding from bytes in ascending address order: one instruction and the bytes after it (R47, R64). -/
def decode : List Byte → Except DecodeError (Instr × List Byte)
  | hi :: lo :: rest => (decodeWord (wordOfBytes hi lo)).map fun i => (i, rest)
  | _ => .error .truncated

/-- The instruction word of an opcode-table row numbered as the table numbers it: the low nbits bits of w, every bit
above them 0 (the table's rows have 16 bits, so there is no second word). -/
def tableWord (nbits w : Nat) : Word := BitVec.ofNat 16 (w % 2 ^ nbits)

/-- What the decoder reads from an instruction whose bits are w, laid out in memory order; none where it refuses. -/
def decodeTableWord (nbits w : Nat) : Option Instr :=
  match decode [highByte (tableWord nbits w), lowByte (tableWord nbits w)] with
  | .ok (i, _) => some i
  | .error _ => none

/-! ### Encoding: the formats of R67 -/

/-- Format A: op[4] nnn[12]. -/
def formatA (op : Nibble) (nnn : Addr12) : Word := op ++ nnn

/-- Format XNN: op[4] x[4] nn[8]; also format X, with the sub-opcode as its low byte. -/
def formatXNN (op : Nibble) (x : RegIx) (nn : Byte) : Word := op ++ x ++ nn

/-- Format XYN: op[4] x[4] y[4] n[4]; also format XY, with the sub-opcode as its low nibble. -/
def formatXYN (op : Nibble) (x y : RegIx) (n : Nibble) : Word := op ++ x ++ y ++ n

/-- The word of an instruction (R65–R77). -/
def encode : Instr → Word
  | .cls => 0x00E0
  | .ret => 0x00EE
  | .jpNnn nnn => formatA 0x1 nnn
  | .callNnn nnn => formatA 0x2 nnn
  | .seVxNn x nn => formatXNN 0x3 x nn
  | .sneVxNn x nn => formatXNN 0x4 x nn
  | .seVxVy x y n => formatXYN 0x5 x y n
  | .ldVxNn x nn => formatXNN 0x6 x nn
  | .addVxNn x nn => formatXNN 0x7 x nn
  | .ldVxVy x y => formatXYN 0x8 x y 0x0
  | .orVxVy x y => formatXYN 0x8 x y 0x1
  | .andVxVy x y => formatXYN 0x8 x y 0x2
  | .xorVxVy x y => formatXYN 0x8 x y 0x3
  | .addVxVy x y => formatXYN 0x8 x y 0x4
  | .subVxVy x y => formatXYN 0x8 x y 0x5
  | .shrVx x y => formatXYN 0x8 x y 0x6
  | .subnVxVy x y => formatXYN 0x8 x y 0x7
  | .shlVx x y => formatXYN 0x8 x y 0xE
  | .sneVxVy x y n => formatXYN 0x9 x y n
  | .ldINnn nnn => formatA 0xA nnn
  | .jpV0Nnn nnn => formatA 0xB nnn
  | .rndVxNn x nn => formatXNN 0xC x nn
  | .drwVxVyN x y n => formatXYN 0xD x y n
  | .skpVx x => formatXNN 0xE x 0x9E
  | .sknpVx x => formatXNN 0xE x 0xA1
  | .ldVxDt x => formatXNN 0xF x 0x07
  | .ldVxK x => formatXNN 0xF x 0x0A
  | .ldDtVx x => formatXNN 0xF x 0x15
  | .ldStVx x => formatXNN 0xF x 0x18
  | .addIVx x => formatXNN 0xF x 0x1E
  | .ldFVx x => formatXNN 0xF x 0x29
  | .ldBVx x => formatXNN 0xF x 0x33
  | .ldMemVx x => formatXNN 0xF x 0x55
  | .ldVxMem x => formatXNN 0xF x 0x65

/-! ### The opcode table's rows -/

/-- One row: a word is the row's instruction when its bits under mask are pattern. -/
structure OpcodeRow where
  pattern : Word
  mask : Word
deriving DecidableEq, Repr

/-- The word matches the row. -/
def OpcodeRow.covers (r : OpcodeRow) (w : Word) : Bool := (w &&& r.mask) == r.pattern

/-- Rows of families 0 to 7 (R77, opcode_table.json). -/
def opcodeRowsLow : List OpcodeRow :=
  [⟨0x00E0, 0xFFFF⟩, ⟨0x00EE, 0xFFFF⟩, ⟨0x1000, 0xF000⟩, ⟨0x2000, 0xF000⟩, ⟨0x3000, 0xF000⟩, ⟨0x4000, 0xF000⟩,
   ⟨0x5000, 0xF000⟩, ⟨0x6000, 0xF000⟩, ⟨0x7000, 0xF000⟩]

/-- Rows of families 8 to D. -/
def opcodeRowsMid : List OpcodeRow :=
  [⟨0x8000, 0xF00F⟩, ⟨0x8001, 0xF00F⟩, ⟨0x8002, 0xF00F⟩, ⟨0x8003, 0xF00F⟩, ⟨0x8004, 0xF00F⟩, ⟨0x8005, 0xF00F⟩,
   ⟨0x8006, 0xF00F⟩, ⟨0x8007, 0xF00F⟩, ⟨0x800E, 0xF00F⟩, ⟨0x9000, 0xF00F⟩, ⟨0xA000, 0xF000⟩, ⟨0xB000, 0xF000⟩,
   ⟨0xC000, 0xF000⟩, ⟨0xD000, 0xF000⟩]

/-- Rows of families E and F. -/
def opcodeRowsHigh : List OpcodeRow :=
  [⟨0xE09E, 0xF0FF⟩, ⟨0xE0A1, 0xF0FF⟩, ⟨0xF007, 0xF0FF⟩, ⟨0xF00A, 0xF0FF⟩, ⟨0xF015, 0xF0FF⟩, ⟨0xF018, 0xF0FF⟩,
   ⟨0xF01E, 0xF0FF⟩, ⟨0xF029, 0xF0FF⟩, ⟨0xF033, 0xF0FF⟩, ⟨0xF055, 0xF0FF⟩, ⟨0xF065, 0xF0FF⟩]

/-- The 34 rows of the opcode table, in its order. -/
def opcodeRows : List OpcodeRow := opcodeRowsLow ++ opcodeRowsMid ++ opcodeRowsHigh

end Sys2Proof
end

