-- ==== Sys2Proof/Machine/State.lean ====
section
/-! DEFINITION. The state of the core as plain data (10_state.md), the fields the model adds for what the outside
world does, the reasons a step of the model could stop, and the state right after reset. -/

namespace Sys2Proof.Machine

/-- Memory: the cells that differ from the reset contents, in the canonical form `Memory.wf` (R35, R45; log 9). -/
abbrev Memory := List Host.Cell

/-- FB[x][y]: 64 columns of 32 cells, indexed column first as the spec writes it (R32, R33). -/
abbrev Framebuffer := Vector (Vector Bool 32) 64

/-- The halt causes of R123. -/
inductive HaltCause where
  /-- The fetched word decodes to Invalid (R124). -/
  | invalidOpcode
  /-- 2NNN with SP = 16 (R125). -/
  | stackOverflow
  /-- 00EE with SP = 0 (R126). -/
  | stackUnderflow
  /-- An access, by the fetch or by an instruction, at an address of 4096 or above (R127). -/
  | memoryRange
  /-- EX9E or EXA1 with VX > 15 (R128). -/
  | keyIndexRange
  /-- The host asked to quit (R132). -/
  | quit
deriving DecidableEq, Repr

/-- The run status: Running, or Halted(cause, addr, word, info) (R37). -/
inductive Status where
  | running
  | halted (cause : HaltCause) (addr word : Word) (info : Nat)
deriving DecidableEq, Repr

/-- Only while Running does any agent act (R37, R78). -/
def Status.isRunning : Status → Bool
  | .running => true
  | .halted _ _ _ _ => false

/-- One key event of an input poll (R139). -/
inductive KeyEvent where
  | down (k : RegIx)
  | up (k : RegIx)
deriving DecidableEq, Repr

/-- What the host does at one loop iteration: the events and the quit flag of the poll, and the values of the ports
`rnd` and `elapsed_ns` (R10, R139). -/
structure HostInput where
  /-- Key events, in the order delivered (R139). -/
  events : List KeyEvent
  /-- The quit flag (R132). -/
  quit : Bool
  /-- The byte on port `rnd` during this iteration's instruction step (R10, R105). -/
  rnd : Byte
  /-- Real time since the previous synchronizer update, as the time source gives it (R137). -/
  elapsedNs : Nat
deriving DecidableEq, Repr

/-- The whole state. The last three fields are the model's own (INVENTORY.md, '## State'). -/
structure State where
  /-- V0..VF (R20–R22). -/
  v : Vector Byte 16
  /-- The index register I (R26). -/
  i : Word
  /-- The program counter PC (R23). -/
  pc : Word
  /-- SP, the number of occupied stack entries, 0..16 (R28; log 8). -/
  sp : Fin 17
  /-- STACK[0..15] (R27). -/
  stack : Vector Word 16
  /-- The delay timer DT (R30). -/
  dt : Byte
  /-- The sound timer ST (R31). -/
  st : Byte
  /-- The framebuffer FB (R32). -/
  fb : Framebuffer
  /-- KEY[0..15] (R34). -/
  keys : Vector Bool 16
  /-- MEM[0..4095] (R35). -/
  mem : Memory
  /-- The run status (R37). -/
  status : Status
  /-- The synchronizer's accumulator `acc`, exactly, in units of 1/60 ns (R38). -/
  acc60 : Nat
  /-- MODEL'S OWN: the byte on port `rnd` for the current instruction step, a free input (R14; log 5). -/
  rndPort : Byte
  /-- MODEL'S OWN: what the host does at the coming loop iterations, the next first (log 4). -/
  inputs : List HostInput
  /-- MODEL'S OWN: the number of input polls made so far, which indexes the free values of Config (log 4). -/
  polls : Nat
deriving DecidableEq, Repr

/-- The model never stops with a fault: every error of this hardware is a halt, which R129 describes as a write of
`status`, so it is a next state (log 7). No constructor, so nothing raises one. -/
inductive Fault
deriving DecidableEq, Repr

/-- Why the model gives an instruction no meaning. -/
inductive Refusal where
  /-- Raised by an arm of `exec` whose instruction has no meaning yet, under the table's mnemonic; safe, because the
  run stops. No arm raises it: all 34 instructions have their meaning. -/
  | notModelled (mnemonic : String)
deriving DecidableEq, Repr

/-- The outcome of a meaning or of a step. -/
abbrev Result := Host.Outcome State Fault Refusal

/-- The state right after reset, before a program image is loaded (R40–R44, R143). The last three fields are the
model's own and hold a DESIGN CHOICE (log 3). -/
def State.reset : State where
  v := Vector.replicate 16 0
  i := 0
  pc := BitVec.ofNat 16 Config.programOrigin
  sp := 0
  stack := Vector.replicate 16 0
  dt := 0
  st := 0
  fb := Vector.replicate 64 (Vector.replicate 32 false)
  keys := Vector.replicate 16 false
  mem := []
  status := .running
  acc60 := 0
  rndPort := 0
  inputs := []
  polls := 0

end Sys2Proof.Machine
end

