-- ==== Sys2Proof/Machine/Ops.lean ====
section
/-! DEFINITION. The named operations over memory, registers, the stack and the program counter, the range check, and
the halt: how this hardware takes an error (00_scope.md R14, 10_state.md R29, 20_memory.md R55, 60_exceptions.md R129). -/

namespace Sys2Proof.Machine

/-! ### Memory -/

/-- What an address that no cell lists reads as: the reset contents, FONT from FONT_BASE and 0x00 elsewhere (R44, R52). -/
def Memory.unlisted (a : Nat) : Byte :=
  if Config.fontBase ≤ a then Config.font.getD (a - Config.fontBase) 0 else 0

/-- The byte at an address (R57). The callers keep the address below MEM_SIZE (R55). -/
def Memory.read (m : Memory) (a : Nat) : Byte :=
  match m.find? (fun c => c.1 == a) with
  | some c => c.2
  | none => Memory.unlisted a

/-- Put a cell into a rising list, before the first cell with a higher address. -/
def Memory.insert (a : Nat) (b : Byte) : Memory → Memory
  | [] => [(a, b)]
  | c :: m => if a < c.1 then (a, b) :: c :: m else c :: Memory.insert a b m

/-- The memory after a byte is written (R53, R57): every address below MEM_SIZE is writable. A byte equal to the reset
contents is not listed, so that equal memories are equal lists. The callers keep the address below MEM_SIZE (R55); at
or above it there is no byte to write (log 9). -/
def Memory.write (m : Memory) (a : Nat) (b : Byte) : Memory :=
  if a < Config.memSize then
    if b = Memory.unlisted a then m.filter (fun c => c.1 != a)
    else Memory.insert a b (m.filter (fun c => c.1 != a))
  else m

/-- The canonical form from address `lo` on: addresses strictly rising and below MEM_SIZE, no cell equal to what an
unlisted address reads as. -/
def Memory.wfFrom (lo : Nat) : Memory → Bool
  | [] => true
  | c :: m => decide (lo ≤ c.1) && decide (c.1 < Config.memSize) && (c.2 != Memory.unlisted c.1) && Memory.wfFrom (c.1 + 1) m

/-- The canonical form of memory. -/
def Memory.wf (m : Memory) : Bool := Memory.wfFrom 0 m

/-- MemRead(a, 1) (R14). -/
def State.readMem (s : State) (a : Nat) : Byte := Memory.read s.mem a

/-- MemWrite(a, 1, b) (R14). -/
def State.writeMem (s : State) (a : Nat) (b : Byte) : State := { s with mem := Memory.write s.mem a b }

/-- Bytes written at ascending addresses from `a` on, in order (R48, R63). -/
def State.writeBytes (s : State) (a : Nat) : List Byte → State
  | [] => s
  | b :: bs => (s.writeMem a b).writeBytes (a + 1) bs

/-- MemRead(PC, 2): the word at PC, the byte at the lower address high (R47). -/
def State.fetchWord (s : State) : Word := wordOfBytes (s.readMem s.pc.toNat) (s.readMem (s.pc.toNat + 1))

/-! ### Registers -/

/-- V[x] (R14). -/
def State.getV (s : State) (x : RegIx) : Byte := s.v[x.toNat]'x.isLt

/-- V[x] <- b (R14). -/
def State.setV (s : State) (x : RegIx) (b : Byte) : State := { s with v := s.v.set x.toNat b x.isLt }

/-- VF <- 1 or 0: a flag is written to VF, last (R22, R91). -/
def State.setFlag (s : State) (f : Bool) : State := s.setV 0xF (if f then 1 else 0)

/-- I <- a (R14). -/
def State.setI (s : State) (a : Word) : State := { s with i := a }

/-- V0..V(k−1) <- the bytes at `a`, `a` + 1, …, in ascending order (R121). -/
def State.loadRegs (s : State) (a : Nat) : Nat → State
  | 0 => s
  | k + 1 => (s.loadRegs a k).setV (BitVec.ofNat 4 k) (s.readMem (a + k))

/-- The bytes in V0..VX, V0 first (R120). -/
def State.regsUpTo (s : State) (x : RegIx) : List Byte := s.v.toList.take (x.toNat + 1)

/-! ### Program counter (R24, R79) -/

/-- pc <- PC + 2. -/
def State.advance (s : State) : State := { s with pc := s.pc + 2 }

/-- pc <- target. -/
def State.jump (s : State) (target : Word) : State := { s with pc := target }

/-- pc <- PC + 4 when the condition holds, else PC + 2. -/
def State.skipIf (s : State) (c : Bool) : State := { s with pc := s.pc + (if c then 4 else 2) }

/-! ### Stack (R29) -/

/-- Push(v): STACK[SP] <- v, then SP <- SP + 1; none when SP = 16. -/
def State.push (s : State) (v : Word) : Option State :=
  if h : s.sp.val < 16 then some { s with stack := s.stack.set s.sp.val v h, sp := ⟨s.sp.val + 1, Nat.succ_lt_succ h⟩ }
  else none

/-- Pop(): SP <- SP − 1, then STACK[SP], which keeps its value; none when SP = 0. -/
def State.pop (s : State) : Option (Word × State) :=
  if h : 0 < s.sp.val then
    some (s.stack[s.sp.val - 1]'(by have := s.sp.isLt; omega), { s with sp := ⟨s.sp.val - 1, by have := s.sp.isLt; omega⟩ })
  else none

/-! ### Keys -/

/-- KEY[k] for k in 0..15, none for a larger k: no such flag exists (R34, R111). -/
def State.keyAt (s : State) (k : Byte) : Option Bool :=
  if h : k.toNat < 16 then some (s.keys[k.toNat]'h) else none

/-- The lowest k with KEY[k] (R114). -/
def State.lowestKey (s : State) : Option (Fin 16) := (List.finRange 16).find? (fun k => s.keys[k])

/-! ### The halt -/

/-- raise Halt(cause, info): the ONE way this hardware takes an error. Only `status` is written, and PC still holds the
address of the halting instruction (R14, R129). There is no return from it (R131). -/
def State.halt (s : State) (cause : HaltCause) (word : Word) (info : Nat) : State :=
  { s with status := .halted cause s.pc word info }

/-- The lowest address at or above MEM_SIZE among `base`, …, `base` + `len` − 1, if there is one (R55, R56). -/
def outOfRange (base len : Nat) : Option Nat :=
  if len = 0 then none
  else if base + len ≤ Config.memSize then none
  else some (max base Config.memSize)

/-- The range check of an instruction that touches `len` bytes from `base` on: checked before any write, the halt
MemoryRange with the lowest out-of-range address, else the effect `t` (R55). -/
def guardRange (base len : Nat) (word : Word) (s t : State) : Result :=
  match outOfRange base len with
  | some a => .next (s.halt .memoryRange word a)
  | none => .next t

end Sys2Proof.Machine
end

