-- ==== Sys2Proof/Machine/Clock.lean ====
section
/-! DEFINITION. The dual-rate clock synchronizer: the timer tick and the tick accumulator (60_exceptions.md R135–R138). -/

namespace Sys2Proof.Machine

/-- A timer's decrement, floored at zero (R135). -/
def decFloor (t : Byte) : Byte := if t.toNat > 0 then t - 1 else 0

/-- One tick, to both timers at once (R135). -/
def tick (s : State) : State := { s with dt := decFloor s.dt, st := decFloor s.st }

/-- The catch-up loop: while acc > TICK_NS, tick and subtract TICK_NS, at most `fuel` times (R137). -/
def syncLoop : Nat → State → State
  | 0, s => s
  | fuel + 1, s =>
    if s.acc60 > Config.tick60 then syncLoop fuel { tick s with acc60 := s.acc60 - Config.tick60 } else s

/-- The state after `acc` has taken the elapsed time, exactly, and caught up (R137). The fuel is at least the number of
whole periods in `acc`, so the loop always ends by its own test. -/
def caughtUp (elapsedNs : Nat) (s : State) : State :=
  syncLoop ((s.acc60 + 60 * elapsedNs) / Config.tick60) { s with acc60 := s.acc60 + 60 * elapsedNs }

/-- sync(elapsed_ns): DT, ST and `acc` are those of the caught-up state, and nothing else changes (R135, R137); it is
the caught-up state itself (`sync_eq_caughtUp`). -/
def sync (elapsedNs : Nat) (s : State) : State :=
  { s with dt := (caughtUp elapsedNs s).dt, st := (caughtUp elapsedNs s).st, acc60 := (caughtUp elapsedNs s).acc60 }

end Sys2Proof.Machine
end

