-- ==== Sys2Proof/Machine/Flags.lean ====
section
/-! DEFINITION. The flag computations, each from the operand values read at the start of the instruction, and the one
way a result and its flag are written (10_state.md R22, 41_alu.md R91). The collision flag is in Machine/Draw.lean. -/

namespace Sys2Proof.Machine

/-- Carry of 8XY4: a + b > 255 (R91, R98). -/
def carryFlag (a b : Byte) : Bool := decide (a.toNat + b.toNat > 255)

/-- No-borrow of a − b: a ≥ b (R91, R99, R101). -/
def noBorrowFlag (a b : Byte) : Bool := decide (a.toNat ≥ b.toNat)

/-- The bit a right shift moves out: bit 0 (R100). -/
def shiftedOutRight (a : Byte) : Bool := a.getLsbD 0

/-- The bit a left shift moves out: bit 7 (R102). -/
def shiftedOutLeft (a : Byte) : Bool := a.getLsbD 7

/-- VX <- the result, then VF <- the flag, then PC <- PC + 2 (R22, R149). -/
def writeResultAndFlag (x : RegIx) (result : Byte) (f : Bool) (s : State) : Result :=
  .next ((s.setV x result).setFlag f).advance

/-- VX <- the result, no flag, PC <- PC + 2. -/
def writeResult (x : RegIx) (result : Byte) (s : State) : Result := .next (s.setV x result).advance

end Sys2Proof.Machine
end

