-- ==== Sys2Proof/Machine/Operands.lean ====
section
/-! DEFINITION. The operand forms: how an instruction's fields become values (30_encoding.md R66), with the forms that
a parameter of R7 selects. -/

namespace Sys2Proof.Machine

/-- An address operand: zext_16(nnn) (R66). -/
def addressOf (nnn : Addr12) : Word := nnn.setWidth 16

/-- The operand of a shift: VX in place, or VY where SHIFT_USES_VY holds (R100, R102). -/
def shiftOperand (x y : RegIx) (s : State) : Byte := if Config.shiftUsesVy then s.getV y else s.getV x

/-- The register BNNN adds: V0, or V[w[11:8]] where JUMP_OFFSET_USES_VX holds (R104). -/
def jumpOffset (nnn : Addr12) (s : State) : Byte :=
  if Config.jumpOffsetUsesVx then s.getV (nnn.extractLsb' 8 4) else s.getV 0

/-- The digit FX29 looks up: the full VX, or VX under FONT_INDEX_MASK where there is one (R118). -/
def glyphIndex (v : Byte) : Byte :=
  match Config.fontIndexMask with
  | some m => v &&& m
  | none => v

/-- FONT_BASE + 5 * VX (R118). -/
def glyphAddress (v : Byte) : Word := BitVec.ofNat 16 (Config.fontBase + Config.fontGlyphBytes * (glyphIndex v).toNat)

/-- The three decimal digits of a byte, hundreds first (R119). -/
def bcdDigits (v : Byte) : List Byte :=
  [BitVec.ofNat 8 (v.toNat / 100), BitVec.ofNat 8 (v.toNat / 10 % 10), BitVec.ofNat 8 (v.toNat % 10)]

/-- I after FX55 or FX65: unchanged, or I + X + 1 where LOADSTORE_INCREMENTS_I holds (R120, R121). -/
def indexAfterTransfer (x : RegIx) (s : State) : Word :=
  if Config.loadStoreIncrementsI then s.i + x.setWidth 16 + 1 else s.i

end Sys2Proof.Machine
end

