-- ==== Sys2Proof/Machine/Alu.lean ====
section
/-! DEFINITION. Immediate load and add, and the register arithmetic and logic group (41_alu.md R91–R102). -/

namespace Sys2Proof.Machine

/-- 6XNN (R92). -/
def execLdVxNn (x : RegIx) (nn : Byte) (s : State) : Result := writeResult x nn s

/-- 7XNN: wraps, no flag (R93). -/
def execAddVxNn (x : RegIx) (nn : Byte) (s : State) : Result := writeResult x (s.getV x + nn) s

/-- 8XY0 (R94). -/
def execLdVxVy (x y : RegIx) (s : State) : Result := writeResult x (s.getV y) s

/-- 8XY1: VF is not reset (R95). -/
def execOrVxVy (x y : RegIx) (s : State) : Result := writeResult x (s.getV x ||| s.getV y) s

/-- 8XY2: VF is not reset (R96). -/
def execAndVxVy (x y : RegIx) (s : State) : Result := writeResult x (s.getV x &&& s.getV y) s

/-- 8XY3: VF is not reset (R97). -/
def execXorVxVy (x y : RegIx) (s : State) : Result := writeResult x (s.getV x ^^^ s.getV y) s

/-- 8XY4 (R98). -/
def execAddVxVy (x y : RegIx) (s : State) : Result :=
  writeResultAndFlag x (s.getV x + s.getV y) (carryFlag (s.getV x) (s.getV y)) s

/-- 8XY5: VX − VY (R99). -/
def execSubVxVy (x y : RegIx) (s : State) : Result :=
  writeResultAndFlag x (s.getV x - s.getV y) (noBorrowFlag (s.getV x) (s.getV y)) s

/-- 8XY6 (R100). -/
def execShrVx (x y : RegIx) (s : State) : Result :=
  writeResultAndFlag x (shiftOperand x y s >>> 1) (shiftedOutRight (shiftOperand x y s)) s

/-- 8XY7: VY − VX (R101). -/
def execSubnVxVy (x y : RegIx) (s : State) : Result :=
  writeResultAndFlag x (s.getV y - s.getV x) (noBorrowFlag (s.getV y) (s.getV x)) s

/-- 8XYE (R102). -/
def execShlVx (x y : RegIx) (s : State) : Result :=
  writeResultAndFlag x (shiftOperand x y s <<< 1) (shiftedOutLeft (shiftOperand x y s)) s

end Sys2Proof.Machine
end

