-- ==== Sys2Proof/Machine/Draw.lean ====
section
/-! DEFINITION. The sprite XOR-draw unit with wrap-around and collision detection (43_draw.md R106–R110). -/

namespace Sys2Proof.Machine

/-- FB[x][y] (R14, R33). -/
def pixel (fb : Framebuffer) (x : Fin 64) (y : Fin 32) : Bool := fb[x.val][y.val]

/-- FB[x][y] <- not FB[x][y]. -/
def flipPixel (fb : Framebuffer) (x : Fin 64) (y : Fin 32) : Framebuffer :=
  fb.set x.val (fb[x.val].set y.val (!pixel fb x y))

/-- The column of bit b of a sprite row drawn at x0: (x0 + b) mod 64 (R107). -/
def spriteColumn (x0 : Byte) (b : Nat) : Fin 64 := ⟨(x0.toNat + b) % 64, Nat.mod_lt _ (by decide)⟩

/-- The row of sprite row r drawn at y0: (y0 + r) mod 32 (R107). -/
def spriteRow (y0 : Byte) (r : Nat) : Fin 32 := ⟨(y0.toNat + r) % 32, Nat.mod_lt _ (by decide)⟩

/-- Sprite bit b of a row, most significant bit first: (row >> (7 − b)) & 1 (R106). -/
def spriteBit (row : Byte) (b : Nat) : Bool := row.getLsbD (7 - b)

/-- The framebuffer and the collision bit c while a sprite is drawn. -/
abbrev Canvas := Framebuffer × Bool

/-- One sprite bit at one pixel: a 0 bit changes nothing; a 1 bit flips the pixel and sets c if the pixel was on (R108). -/
def drawBit (bit : Bool) (x : Fin 64) (y : Fin 32) (p : Canvas) : Canvas :=
  if bit then (flipPixel p.1 x y, p.2 || pixel p.1 x y) else p

/-- The first k bits of a sprite row, bit 7 first (R106). -/
def drawBits (row x0 : Byte) (y : Fin 32) (p : Canvas) : Nat → Canvas
  | 0 => p
  | b + 1 => drawBit (spriteBit row b) (spriteColumn x0 b) y (drawBits row x0 y p b)

/-- The first k rows of the sprite at I (R106). -/
def drawRows (s : State) (x0 y0 : Byte) (p : Canvas) : Nat → Canvas
  | 0 => p
  | r + 1 => drawBits (s.readMem (s.i.toNat + r)) x0 (spriteRow y0 r) (drawRows s x0 y0 p r) 8

/-- The framebuffer and the collision flag of a whole draw: c starts at 0 (R106, R108). -/
def drawSprite (x y : RegIx) (n : Nibble) (s : State) : Canvas :=
  drawRows s (s.getV x) (s.getV y) (s.fb, false) n.toNat

/-- DXYN: the range check, then the pixels, then VF, the last write (R106). -/
def execDrwVxVyN (x y : RegIx) (n : Nibble) (s : State) : Result :=
  guardRange s.i.toNat n.toNat (encode (.drwVxVyN x y n)) s
    ((({ s with fb := (drawSprite x y n s).1 } : State).setFlag (drawSprite x y n s).2).advance)

end Sys2Proof.Machine
end

