-- ==== Sys2Proof/Machine/Flow.lean ====
section
/-! DEFINITION. Screen clear, subroutines, jumps and register skips (40_flow.md R83–R90). -/

namespace Sys2Proof.Machine

/-- 00E0 (R83). -/
def execCls (s : State) : Result :=
  .next ({ s with fb := Vector.replicate 64 (Vector.replicate 32 false) } : State).advance

/-- 00EE: the popped entry is the address of the CALL, so the return adds 2 (R84, R126). -/
def execRet (s : State) : Result :=
  match s.pop with
  | some (a, t) => .next (t.jump (a + 2))
  | none => .next (s.halt .stackUnderflow (encode .ret) 0)

/-- 1NNN (R85). -/
def execJpNnn (nnn : Addr12) (s : State) : Result := .next (s.jump (addressOf nnn))

/-- 2NNN: pushes its own address (R86, R125). -/
def execCallNnn (nnn : Addr12) (s : State) : Result :=
  match s.push s.pc with
  | some t => .next (t.jump (addressOf nnn))
  | none => .next (s.halt .stackOverflow (encode (.callNnn nnn)) 16)

/-- 3XNN (R87). -/
def execSeVxNn (x : RegIx) (nn : Byte) (s : State) : Result := .next (s.skipIf (s.getV x == nn))

/-- 4XNN (R88). -/
def execSneVxNn (x : RegIx) (nn : Byte) (s : State) : Result := .next (s.skipIf (s.getV x != nn))

/-- 5XYN, whatever the low nibble (R89). -/
def execSeVxVy (x y : RegIx) (s : State) : Result := .next (s.skipIf (s.getV x == s.getV y))

/-- 9XY0 (R90). -/
def execSneVxVy (x y : RegIx) (s : State) : Result := .next (s.skipIf (s.getV x != s.getV y))

end Sys2Proof.Machine
end

