-- ==== Sys2Proof/Machine/Index.lean ====
section
/-! DEFINITION. Index load, register-offset jump and random byte (42_index_jump_random.md R103–R105). -/

namespace Sys2Proof.Machine

/-- ANNN (R103). -/
def execLdINnn (nnn : Addr12) (s : State) : Result := .next (s.setI (addressOf nnn)).advance

/-- BNNN: NNN plus the register, not reduced modulo 4096 (R104). -/
def execJpV0Nnn (nnn : Addr12) (s : State) : Result :=
  .next (s.jump (addressOf nnn + (jumpOffset nnn s).setWidth 16))

/-- CXNN: the byte on port `rnd` for this step, under the mask (R105; log 5). -/
def execRndVxNn (x : RegIx) (nn : Byte) (s : State) : Result := writeResult x (s.rndPort &&& nn) s

end Sys2Proof.Machine
end

