-- ==== Sys2Proof/Machine/Io.lean ====
section
/-! DEFINITION. Key skips, timers, key wait, index arithmetic, font, BCD and block transfer
(44_keys_timers_memory.md R111–R121). -/

namespace Sys2Proof.Machine

/-- A key skip: the key numbered VX is read as a level; VX > 15 halts with KeyIndexRange (R111, R112, R128). -/
def skipOnKey (x : RegIx) (skipWhen : Bool) (word : Word) (s : State) : Result :=
  match s.keyAt (s.getV x) with
  | some d => .next (s.skipIf (d == skipWhen))
  | none => .next (s.halt .keyIndexRange word (s.getV x).toNat)

/-- EX9E (R111). -/
def execSkpVx (x : RegIx) (s : State) : Result := skipOnKey x true (encode (.skpVx x)) s

/-- EXA1 (R112). -/
def execSknpVx (x : RegIx) (s : State) : Result := skipOnKey x false (encode (.sknpVx x)) s

/-- FX07 (R113). -/
def execLdVxDt (x : RegIx) (s : State) : Result := writeResult x s.dt s

/-- FX0A: the lowest key that is down, or PC not advanced when none is (R114, R150). -/
def execLdVxK (x : RegIx) (s : State) : Result :=
  match s.lowestKey with
  | some k => writeResult x (BitVec.ofNat 8 k.val) s
  | none => .next s

/-- FX15 (R115). -/
def execLdDtVx (x : RegIx) (s : State) : Result := .next ({ s with dt := s.getV x } : State).advance

/-- FX18 (R116). -/
def execLdStVx (x : RegIx) (s : State) : Result := .next ({ s with st := s.getV x } : State).advance

/-- FX1E: modulo 2^16, no flag (R117). -/
def execAddIVx (x : RegIx) (s : State) : Result := .next (s.setI (s.i + (s.getV x).setWidth 16)).advance

/-- FX29 (R118). -/
def execLdFVx (x : RegIx) (s : State) : Result := .next (s.setI (glyphAddress (s.getV x))).advance

/-- FX33: three bytes from I on, or none (R119). -/
def execLdBVx (x : RegIx) (s : State) : Result :=
  guardRange s.i.toNat 3 (encode (.ldBVx x)) s (s.writeBytes s.i.toNat (bcdDigits (s.getV x))).advance

/-- FX55: V0..VX to memory from I on, or nothing (R120). -/
def execLdMemVx (x : RegIx) (s : State) : Result :=
  guardRange s.i.toNat (x.toNat + 1) (encode (.ldMemVx x)) s
    (((s.writeBytes s.i.toNat (s.regsUpTo x)).setI (indexAfterTransfer x s)).advance)

/-- FX65: V0..VX from memory from I on, or nothing (R121). -/
def execLdVxMem (x : RegIx) (s : State) : Result :=
  guardRange s.i.toNat (x.toNat + 1) (encode (.ldVxMem x)) s
    (((s.loadRegs s.i.toNat (x.toNat + 1)).setI (indexAfterTransfer x s)).advance)

end Sys2Proof.Machine
end

