-- ==== Sys2Proof/Machine/Input.lean ====
section
/-! DEFINITION. The input poll: how key events, the quit flag and the port values reach the core
(10_state.md R34, 60_exceptions.md R139, 70_reset_and_hazards.md R142). -/

namespace Sys2Proof.Machine

/-- A key-down event sets KEY[k], a key-up event clears it (R139). -/
def applyEvent (keys : Vector Bool 16) : KeyEvent → Vector Bool 16
  | .down k => keys.set k.toNat true k.isLt
  | .up k => keys.set k.toNat false k.isLt

/-- The events of one poll, in the order delivered (R139). -/
def applyEvents (keys : Vector Bool 16) (es : List KeyEvent) : Vector Bool 16 := es.foldl applyEvent keys

/-- What the host does at the coming iteration: the head of the input list. Past its end there is no key event and no
quit, and the port values are free (R105, R138; log 4, log 5, log 6). -/
def nextInput (s : State) : HostInput :=
  match s.inputs with
  | h :: _ => h
  | [] => { events := [], quit := false, rnd := Config.freeRnd s.polls, elapsedNs := Config.freeElapsedNs s.polls }

/-- The state after the input poll: KEY updated, port `rnd` sampled, the input consumed (R142, event 1). -/
def poll (s : State) : State :=
  { s with
    keys := applyEvents s.keys (nextInput s).events
    rndPort := (nextInput s).rnd
    inputs := s.inputs.tail
    polls := s.polls + 1 }

end Sys2Proof.Machine
end

