-- ==== Sys2Proof/Machine/Cycle.lean ====
section
/-! DEFINITION. The instruction step (30_encoding.md R78) and one iteration of the run loop (70_reset_and_hazards.md
R142); placing one instruction where the next fetch finds it. -/

namespace Sys2Proof.Machine

/-- A fetch at PC is in range when PC + 1 < MEM_SIZE (R55, R78). -/
def State.fetchInRange (s : State) : Bool := decide (s.pc.toNat + 1 < Config.memSize)

/-- step() of R78: fetch, decode, execute, each with its halt, in the order of R130. -/
def instructionStep (s : State) : Result :=
  if s.fetchInRange then
    match decodeWord s.fetchWord with
    | .ok i => exec i s
    | .error _ => .next (s.halt .invalidOpcode s.fetchWord 0)
  else .next (s.halt .memoryRange 0x0000 (max s.pc.toNat Config.memSize))

/-- Events 4 and 5 of R142: if the step halted, stop; else the clock bookkeeping. -/
def clockBookkeeping (elapsedNs : Nat) (t : State) : State := if t.status.isRunning then sync elapsedNs t else t

/-- One iteration of the loop of R142: poll, quit, step, clock bookkeeping. The display's read (event 6) changes
nothing. When the machine is not Running no agent acts (R37, R129; log 7). -/
def loopIteration (s : State) : Result :=
  if s.status.isRunning then
    if (nextInput s).quit then .next ((poll s).halt .quit 0x0000 0)
    else
      match instructionStep (poll s) with
      | .next t => .next (clockBookkeeping (nextInput s).elapsedNs t)
      | .fault r => .fault r
      | .refused r => .refused r
  else .next s

/-- The input list with no quit in its next entry. -/
def withoutQuit : List HostInput → List HostInput
  | [] => []
  | h :: rest => { h with quit := false } :: rest

/-- PC where a fetch is in range, else PROGRAM_ORIGIN. -/
def State.fetchablePc (s : State) : Word := if s.fetchInRange then s.pc else BitVec.ofNat 16 Config.programOrigin

/-- The state with a word stored where the next step fetches it, Running, and with no quit at the next poll: all that
the very next step needs to run that word (log 10). -/
def State.placeWord (s : State) (w : Word) : State :=
  { s with
    mem := Memory.write (Memory.write s.mem s.fetchablePc.toNat (highByte w)) (s.fetchablePc.toNat + 1) (lowByte w)
    pc := s.fetchablePc
    status := .running
    inputs := withoutQuit s.inputs }

end Sys2Proof.Machine
end

