-- ==== Sys2Proof/Machine/Step.lean ====
section
/-! DEFINITION. The step of the machine, one iteration of the run loop; and an instruction placed for the next step. -/

namespace Sys2Proof.Machine

/-- One step: one iteration of the loop of R142. -/
def step : State → Host.Outcome State Fault Refusal := fun s => loopIteration s

/-- `s` with the instruction whose bits are `w` stored where `step` fetches its next instruction (log 10). -/
def State.withFetchWord (s : State) (nbits w : Nat) : State := s.placeWord (tableWord nbits w)

end Sys2Proof.Machine
end

