-- ==== Sys2Proof/Machine/Session.lean ====
section
/-! DEFINITION. What surrounds the run loop: loading a program image, the start of a session and its failures
(20_memory.md R63, 70_reset_and_hazards.md R143–R145), the output ports (00_scope.md R10), and the halt codes and
diagnostics (60_exceptions.md R123). -/

namespace Sys2Proof.Machine

/-- Why a session ends before its first step (R145). -/
inductive BootFailure where
  /-- "missing/unreadable program file" -/
  | programUnreadable
  /-- "program too large for memory" -/
  | programTooLarge
  /-- "display backend fails to initialize" -/
  | displayFailed
deriving DecidableEq, Repr

/-- The loader: rejected if longer than MAX_PROGRAM, else copied verbatim from PROGRAM_ORIGIN on (R63, R144). -/
def load (image : List Byte) (s : State) : Except BootFailure State :=
  if image.length ≤ Config.maxProgram then .ok (s.writeBytes Config.programOrigin image)
  else .error .programTooLarge

/-- The start of a session: reset, load, display, and the state before the first loop iteration, with what the host
will do (R143–R145). `image` is none when the program file is missing or unreadable. The order of load and display is
open (N33; log 14). -/
def boot (image : Option (List Byte)) (displayOk : Bool) (inputs : List HostInput) : Except BootFailure State :=
  match image with
  | none => .error .programUnreadable
  | some img =>
    match load img State.reset with
    | .error e => .error e
    | .ok s => if displayOk then .ok { s with inputs := inputs } else .error .displayFailed

/-- The output ports `fb`, `status`, `dt`, `st` (R10): what the display and the surroundings may read (R140). -/
structure Outputs where
  fb : Framebuffer
  status : Status
  dt : Byte
  st : Byte
deriving DecidableEq, Repr

/-- The output ports of a state. -/
def State.outputs (s : State) : Outputs := { fb := s.fb, status := s.status, dt := s.dt, st := s.st }

/-- The codes of R123's table; 0 is Running. -/
def Status.code : Status → Nat
  | .running => 0
  | .halted .invalidOpcode _ _ _ => 1
  | .halted .stackOverflow _ _ _ => 2
  | .halted .stackUnderflow _ _ _ => 3
  | .halted .memoryRange _ _ _ => 4
  | .halted .keyIndexRange _ _ _ => 5
  | .halted .quit _ _ _ => 6

/-- The terminal diagnostics the source words: "invalid opcode at address A (word W)" and "terminated by user
request" (R37, R124, R132). -/
inductive Diagnostic where
  | invalidOpcodeAt (a w : Word)
  | terminatedByUserRequest
deriving DecidableEq, Repr

/-- The diagnostic of a status; none where the source words none. -/
def Status.diagnostic : Status → Option Diagnostic
  | .halted .invalidOpcode a w _ => some (.invalidOpcodeAt a w)
  | .halted .quit _ _ _ => some .terminatedByUserRequest
  | .running => none
  | .halted .stackOverflow _ _ _ => none
  | .halted .stackUnderflow _ _ _ => none
  | .halted .memoryRange _ _ _ => none
  | .halted .keyIndexRange _ _ _ => none

end Sys2Proof.Machine
end

