-- ==== Sys2Proof/Safety.lean ====
section
/-! DEFINITION. The terms in which statements speak of the machine: which instructions write a general register,
what a change leaves alone, the invariant every step keeps, and what a safe run is. -/

namespace Sys2Proof

/-! ### Writers of the general registers -/

/-- The instructions that write V[r] as their destination (R21, and R22 for r = F): the one with r as its x field, or the
block load, which writes V0..VX. -/
def Instr.writesAsDestination (r : RegIx) : Instr → Bool
  | .ldVxNn x _ | .addVxNn x _ | .ldVxVy x _ | .orVxVy x _ | .andVxVy x _ | .xorVxVy x _ => r == x
  | .addVxVy x _ | .subVxVy x _ | .shrVx x _ | .subnVxVy x _ | .shlVx x _ => r == x
  | .rndVxNn x _ | .ldVxDt x | .ldVxK x => r == x
  | .ldVxMem x => decide (r.toNat ≤ x.toNat)
  | .cls | .ret | .jpNnn _ | .callNnn _ | .seVxNn _ _ | .sneVxNn _ _ | .seVxVy _ _ _ | .sneVxVy _ _ _ => false
  | .ldINnn _ | .jpV0Nnn _ | .drwVxVyN _ _ _ | .skpVx _ | .sknpVx _ => false
  | .ldDtVx _ | .ldStVx _ | .addIVx _ | .ldFVx _ | .ldBVx _ | .ldMemVx _ => false

/-- The instructions that write VF as the flag: carry, no-borrow, the bit shifted out, collision (R22). -/
def Instr.writesFlag : Instr → Bool
  | .addVxVy _ _ | .subVxVy _ _ | .subnVxVy _ _ | .shrVx _ _ | .shlVx _ _ | .drwVxVyN _ _ _ => true
  | .ldVxNn _ _ | .addVxNn _ _ | .ldVxVy _ _ | .orVxVy _ _ | .andVxVy _ _ | .xorVxVy _ _ => false
  | .cls | .ret | .jpNnn _ | .callNnn _ | .seVxNn _ _ | .sneVxNn _ _ | .seVxVy _ _ _ | .sneVxVy _ _ _ => false
  | .ldINnn _ | .jpV0Nnn _ | .rndVxNn _ _ | .skpVx _ | .sknpVx _ | .ldVxDt _ | .ldVxK _ => false
  | .ldDtVx _ | .ldStVx _ | .addIVx _ | .ldFVx _ | .ldBVx _ | .ldMemVx _ | .ldVxMem _ => false

end Sys2Proof

namespace Sys2Proof.Machine

/-! ### Frames -/

/-- Only PC differs; every byte of memory reads as before. -/
def ChangesOnlyPc (s t : State) : Prop := t = { s with pc := t.pc } ∧ ∀ a, t.readMem a = s.readMem a

/-- Only general registers and PC differ; every byte of memory reads as before. -/
def ChangesOnlyVPc (s t : State) : Prop := t = { s with v := t.v, pc := t.pc } ∧ ∀ a, t.readMem a = s.readMem a

/-- Only I and PC differ; every byte of memory reads as before. -/
def ChangesOnlyIPc (s t : State) : Prop := t = { s with i := t.i, pc := t.pc } ∧ ∀ a, t.readMem a = s.readMem a

/-- The state halted with the given record, nothing else written (R129). -/
def HaltedWith (s : State) (cause : HaltCause) (word : Word) (info : Nat) : State :=
  { s with status := .halted cause s.pc word info }

/-! ### Key events -/

/-- The key an event is about (R139). -/
def KeyEvent.key : KeyEvent → RegIx
  | .down k => k
  | .up k => k

/-- The level an event leaves its key at (R139). -/
def KeyEvent.level : KeyEvent → Bool
  | .down _ => true
  | .up _ => false

/-! ### Draw -/

/-- The sprite of n rows at `a`, drawn at (x0, y0), has a 1 bit on pixel (px, py) (R106, R107). -/
def SpriteCovers (s : State) (a : Nat) (n : Nat) (x0 y0 : Nat) (px : Fin 64) (py : Fin 32) : Prop :=
  ∃ r b : Nat, r < n ∧ b < 8 ∧ (s.readMem (a + r)).toNat / 2 ^ (7 - b) % 2 = 1 ∧ px.val = (x0 + b) % 64 ∧ py.val = (y0 + r) % 32

/-! ### The invariant -/

/-- What R123's table says of a halt record, in the state that holds it: the word is the one the halting fetch read,
and the cause and info agree with the registers, which nothing changes after the halt (R129). -/
def HaltRecordAgrees (s : State) : Status → Prop
  | .running => True
  | .halted .invalidOpcode a w info => a = s.pc ∧ w = s.fetchWord ∧ info = 0 ∧ ∃ e, decodeWord w = .error e
  | .halted .stackOverflow a w info => a = s.pc ∧ w = s.fetchWord ∧ info = 16 ∧ s.sp.val = 16 ∧ ∃ nnn, decodeWord w = .ok (.callNnn nnn)
  | .halted .stackUnderflow a w info => a = s.pc ∧ w = s.fetchWord ∧ info = 0 ∧ s.sp.val = 0 ∧ w = 0x00EE
  | .halted .memoryRange a w info =>
    a = s.pc ∧ Config.memSize ≤ info ∧ ((Config.memSize ≤ s.pc.toNat + 1 ∧ w = 0) ∨ (s.pc.toNat + 1 < Config.memSize ∧ w = s.fetchWord))
  | .halted .keyIndexRange a w info => a = s.pc ∧ w = s.fetchWord ∧ 15 < info ∧ ∃ x, info = (s.getV x).toNat
  | .halted .quit a w info => a = s.pc ∧ w = 0 ∧ info = 0

/-- The invariant every step keeps: memory in canonical form, PC at most 0x10FE (R24), every stack entry an address a
CALL can be fetched from (R84, R86), no whole tick period left over in `acc` (R137), and a halt record that agrees with
the machine (R123). -/
structure State.Inv (s : State) : Prop where
  memWf : Memory.wf s.mem = true
  pcBound : s.pc.toNat ≤ 0x10FE
  stackBound : ∀ j : Fin 16, (s.stack[j.val]).toNat + 1 < Config.memSize
  accBound : s.acc60 ≤ Config.tick60
  recordAgrees : HaltRecordAgrees s s.status

/-! ### Safe runs -/

/-- The status records an error: a halt with any cause but Quit (R123). -/
def Status.isError : Status → Bool
  | .running => false
  | .halted .quit _ _ _ => false
  | .halted .invalidOpcode _ _ _ => true
  | .halted .stackOverflow _ _ _ => true
  | .halted .stackUnderflow _ _ _ => true
  | .halted .memoryRange _ _ _ => true
  | .halted .keyIndexRange _ _ _ => true

/-- A run of k steps from s is safe when it ends in a state without an error. -/
def SafeFor (k : Nat) (s : State) : Prop := ∃ t, Sys2Proof.core.run k s = .next t ∧ t.status.isError = false

end Sys2Proof.Machine
end

