-- ==== Sys2Proof/Certificates/Slice0/Obligations.lean ====
section
/-! DEFINITION. The statements about the core. Each docstring names the rules it formalises. -/

open Sys2Proof Sys2Proof.Machine

/-! ### Encoding -/

/-- Sanity: words written out from the encodings of R77 decode to the instructions they stand for. -/
def Obligations.SampleWordsDecode : Prop :=
  decodeTableWord 16 0x00E0 = some .cls ∧ decodeTableWord 16 0x1234 = some (.jpNnn 0x234) ∧
  decodeTableWord 16 0x6A7B = some (.ldVxNn 0xA 0x7B) ∧ decodeTableWord 16 0x8125 = some (.subVxVy 1 2) ∧
  decodeTableWord 16 0xD235 = some (.drwVxVyN 2 3 5) ∧ decodeTableWord 16 0xE59E = some (.skpVx 5) ∧
  decodeTableWord 16 0xFA33 = some (.ldBVx 0xA) ∧ decodeTableWord 16 0x5001 = some (.seVxVy 0 0 1) ∧
  decodeTableWord 16 0xF000 = none

/-- Decoding the word of a well-formed instruction gives that instruction, with every operand at every value. -/
def Obligations.DecodeOfEncode : Prop :=
  ∀ i : Instr, i.wellFormed = true → decodeWord (encode i) = .ok i

/-- A word that decodes is the word of the well-formed term it decodes to. The low nibble of 5XYN and the y of 8XY6 and
8XYE, which the instruction ignores (R70, R100, R102), come back because the constructors keep them: that is the model's
choice (log 13), and two words that differ only there have the same effect. -/
def Obligations.EncodeOfDecode : Prop :=
  ∀ (w : Word) (i : Instr), decodeWord w = .ok i → encode i = w ∧ i.wellFormed = true

/-- Families 0, 5, 8, E and F, by the number the word is: R69, R70, R71, R73, R74. -/
def Obligations.FamiliesWithSubOpcodesDecode : Prop :=
  (∀ k : Nat, k < 0x1000 →
    (k = 0xE0 → decodeWord (BitVec.ofNat 16 k) = .ok .cls) ∧ (k = 0xEE → decodeWord (BitVec.ofNat 16 k) = .ok .ret) ∧
    (k ≠ 0xE0 → k ≠ 0xEE → ∃ e, decodeWord (BitVec.ofNat 16 k) = .error e)) ∧
  (∀ (x y : RegIx) (n : Nibble),
    decodeWord (BitVec.ofNat 16 (0x5000 + 0x100 * x.toNat + 0x10 * y.toNat + n.toNat)) = .ok (.seVxVy x y n)) ∧
  (∀ (x y : RegIx) (n : Nibble) (w : Word), w = BitVec.ofNat 16 (0x8000 + 0x100 * x.toNat + 0x10 * y.toNat + n.toNat) →
    (n = 0x0 → decodeWord w = .ok (.ldVxVy x y)) ∧ (n = 0x1 → decodeWord w = .ok (.orVxVy x y)) ∧
    (n = 0x2 → decodeWord w = .ok (.andVxVy x y)) ∧ (n = 0x3 → decodeWord w = .ok (.xorVxVy x y)) ∧
    (n = 0x4 → decodeWord w = .ok (.addVxVy x y)) ∧ (n = 0x5 → decodeWord w = .ok (.subVxVy x y)) ∧
    (n = 0x6 → decodeWord w = .ok (.shrVx x y)) ∧ (n = 0x7 → decodeWord w = .ok (.subnVxVy x y)) ∧
    (n = 0xE → decodeWord w = .ok (.shlVx x y)) ∧
    (n ∈ [0x8, 0x9, 0xA, 0xB, 0xC, 0xD, 0xF] → ∃ e, decodeWord w = .error e)) ∧
  (∀ (x : RegIx) (nn : Byte) (w : Word), w = BitVec.ofNat 16 (0xE000 + 0x100 * x.toNat + nn.toNat) →
    (nn = 0x9E → decodeWord w = .ok (.skpVx x)) ∧ (nn = 0xA1 → decodeWord w = .ok (.sknpVx x)) ∧
    (nn ≠ 0x9E → nn ≠ 0xA1 → ∃ e, decodeWord w = .error e)) ∧
  (∀ (x : RegIx) (nn : Byte) (w : Word), w = BitVec.ofNat 16 (0xF000 + 0x100 * x.toNat + nn.toNat) →
    (nn = 0x07 → decodeWord w = .ok (.ldVxDt x)) ∧ (nn = 0x0A → decodeWord w = .ok (.ldVxK x)) ∧
    (nn = 0x15 → decodeWord w = .ok (.ldDtVx x)) ∧ (nn = 0x18 → decodeWord w = .ok (.ldStVx x)) ∧
    (nn = 0x1E → decodeWord w = .ok (.addIVx x)) ∧ (nn = 0x29 → decodeWord w = .ok (.ldFVx x)) ∧
    (nn = 0x33 → decodeWord w = .ok (.ldBVx x)) ∧ (nn = 0x55 → decodeWord w = .ok (.ldMemVx x)) ∧
    (nn = 0x65 → decodeWord w = .ok (.ldVxMem x)) ∧
    (nn ∉ [0x07, 0x0A, 0x15, 0x18, 0x1E, 0x29, 0x33, 0x55, 0x65] → ∃ e, decodeWord w = .error e))

/-- The families without a sub-opcode, and family 9 as this hardware decodes it (R65, R68, R72, R77). -/
def Obligations.FamiliesWithoutSubOpcodesDecode : Prop :=
  (∀ nnn : Addr12,
    decodeWord (BitVec.ofNat 16 (0x1000 + nnn.toNat)) = .ok (.jpNnn nnn) ∧
    decodeWord (BitVec.ofNat 16 (0x2000 + nnn.toNat)) = .ok (.callNnn nnn) ∧
    decodeWord (BitVec.ofNat 16 (0xA000 + nnn.toNat)) = .ok (.ldINnn nnn) ∧
    decodeWord (BitVec.ofNat 16 (0xB000 + nnn.toNat)) = .ok (.jpV0Nnn nnn)) ∧
  (∀ (x : RegIx) (nn : Byte),
    decodeWord (BitVec.ofNat 16 (0x3000 + 0x100 * x.toNat + nn.toNat)) = .ok (.seVxNn x nn) ∧
    decodeWord (BitVec.ofNat 16 (0x4000 + 0x100 * x.toNat + nn.toNat)) = .ok (.sneVxNn x nn) ∧
    decodeWord (BitVec.ofNat 16 (0x6000 + 0x100 * x.toNat + nn.toNat)) = .ok (.ldVxNn x nn) ∧
    decodeWord (BitVec.ofNat 16 (0x7000 + 0x100 * x.toNat + nn.toNat)) = .ok (.addVxNn x nn) ∧
    decodeWord (BitVec.ofNat 16 (0xC000 + 0x100 * x.toNat + nn.toNat)) = .ok (.rndVxNn x nn)) ∧
  (∀ (x y : RegIx) (n : Nibble),
    decodeWord (BitVec.ofNat 16 (0xD000 + 0x100 * x.toNat + 0x10 * y.toNat + n.toNat)) = .ok (.drwVxVyN x y n) ∧
    (n = 0 → decodeWord (BitVec.ofNat 16 (0x9000 + 0x100 * x.toNat + 0x10 * y.toNat + n.toNat)) = .ok (.sneVxVy x y 0)) ∧
    (n ≠ 0 → ∃ e, decodeWord (BitVec.ofNat 16 (0x9000 + 0x100 * x.toNat + 0x10 * y.toNat + n.toNat)) = .error e))

/-- How many words are Invalid, family by family, and in all sixteen families together: 17742 of 65536
(R76, which the spec derives from R69 to R74). -/
def Obligations.InvalidWordCounts : Prop :=
  (∀ f : Fin 16, ((List.range 0x1000).countP fun k => (decodeWord (BitVec.ofNat 16 (0x1000 * f.val + k))).toOption.isNone) =
    (match f.val with
      | 0x0 => 4094
      | 0x8 => 1792
      | 0x9 => 3840
      | 0xE => 4064
      | 0xF => 3952
      | _ => 0)) ∧
  ((List.range 16).map fun f =>
    (List.range 0x1000).countP fun k => (decodeWord (BitVec.ofNat 16 (0x1000 * f + k))).toOption.isNone).sum = 17742

/-- A word decodes to an instruction exactly when some row of the opcode table covers it, and no word is covered by
two rows. -/
def Obligations.DecodeAgreesWithOpcodeTable : Prop :=
  (∀ w : Word, (∃ i, decodeWord w = .ok i) ↔ ∃ r ∈ opcodeRows, r.covers w = true) ∧
  (∀ w : Word, opcodeRows.Pairwise fun r q => ¬(r.covers w = true ∧ q.covers w = true))

/-! ### Reset and load -/

/-- The registers after reset: R40, R41, R42, R43. -/
def Obligations.RegistersAtReset : Prop :=
  (∀ x : RegIx, State.reset.getV x = 0x00) ∧ State.reset.i = 0x0000 ∧ State.reset.pc = 0x200 ∧ State.reset.sp.val = 0 ∧
  (∀ j : Fin 16, State.reset.stack[j.val] = 0x0000) ∧ State.reset.dt = 0 ∧ State.reset.st = 0 ∧
  (∀ k : Fin 16, State.reset.keys[k.val] = false) ∧ State.reset.status = .running ∧ State.reset.acc60 = 0

/-- The font in memory after reset, glyph g at 5g (R51), zeros in the rest of the 4096 bytes and a clear screen; and the
same with a program image loaded, which stands from 0x200 on (R44). -/
def Obligations.FontAndScreenAtReset : Prop :=
  (List.range 80).map State.reset.readMem =
    [0xF0, 0x90, 0x90, 0x90, 0xF0, 0x20, 0x60, 0x20, 0x20, 0x70, 0xF0, 0x10, 0xF0, 0x80, 0xF0, 0xF0, 0x10, 0xF0, 0x10, 0xF0] ++
    [0x90, 0x90, 0xF0, 0x10, 0x10, 0xF0, 0x80, 0xF0, 0x10, 0xF0, 0xF0, 0x80, 0xF0, 0x90, 0xF0, 0xF0, 0x10, 0x20, 0x40, 0x40] ++
    [0xF0, 0x90, 0xF0, 0x90, 0xF0, 0xF0, 0x90, 0xF0, 0x10, 0xF0, 0xF0, 0x90, 0xF0, 0x90, 0x90, 0xE0, 0x90, 0xE0, 0x90, 0xE0] ++
    [0xF0, 0x80, 0x80, 0x80, 0xF0, 0xE0, 0x90, 0x90, 0x90, 0xE0, 0xF0, 0x80, 0xF0, 0x80, 0xF0, 0xF0, 0x80, 0xF0, 0x80, 0x80] ∧
  (∀ a : Nat, 0x50 ≤ a → a < 4096 → State.reset.readMem a = 0) ∧
  (∀ (x : Fin 64) (y : Fin 32), pixel State.reset.fb x y = false) ∧
  (∀ (image : List Byte) (t : State), load image State.reset = .ok t →
    (∀ (x : Fin 64) (y : Fin 32), pixel t.fb x y = false) ∧
    (∀ a, a < 0x50 → t.readMem a = State.reset.readMem a) ∧
    (∀ k (h : k < image.length), t.readMem (0x200 + k) = image[k]) ∧
    (∀ a, 0x50 ≤ a → a < 4096 → a < 0x200 ∨ 0x200 + image.length ≤ a → t.readMem a = 0))

/-- The loader: an image of at most 3584 bytes is copied from 0x200 on, nothing else changes, and the session starts from
there; a longer one is rejected and no session starts (R63, R144). -/
def Obligations.LoadPlacesImage : Prop :=
  ∀ image : List Byte,
    (image.length ≤ 3584 → ∃ t, load image State.reset = .ok t ∧
      (∀ k (h : k < image.length), t.readMem (0x200 + k) = image[k]) ∧
      (∀ a, 0x200 + image.length ≤ a → a < 4096 → t.readMem a = 0) ∧
      (∀ a, a < 0x200 → t.readMem a = State.reset.readMem a) ∧
      t = { State.reset with mem := t.mem } ∧
      ∀ inputs, boot (some image) true inputs = .ok { t with inputs := inputs }) ∧
    (3584 < image.length → load image State.reset = .error .programTooLarge ∧
      ∀ inputs, boot (some image) true inputs = .error .programTooLarge)

/-! ### Fetch and the run loop -/

/-- The fetched word is big-endian: the byte at PC is bits 15:8 (R47). -/
def Obligations.FetchIsBigEndian : Prop :=
  ∀ s : State, s.fetchWord.toNat = 256 * (s.readMem s.pc.toNat).toNat + (s.readMem (s.pc.toNat + 1)).toNat

/-- A step runs the decoded instruction: while Running, with no quit at the poll and a word in range that decodes to i,
the step is exec of i after the poll, and then, if still Running, the clock bookkeeping (R78, R142). -/
def Obligations.StepRunsDecodedInstruction : Prop :=
  ∀ (s : State) (i : Instr), s.status = .running → (nextInput s).quit = false → s.pc.toNat < 0xFFF →
    decodeWord s.fetchWord = .ok i →
    step s = (match exec i (poll s) with
      | .next t => .next (if t.status = .running then sync (nextInput s).elapsedNs t else t)
      | .fault r => .fault r
      | .refused r => .refused r)

/-- The step runs the instruction withFetchWord places, whatever the state, and withFetchWord changes nothing but the
two bytes, PC where no fetch is in range (to 0x200), the status, and a quit that stands next: the other inputs, and the
other parts of the next one, stay (log 10). -/
def Obligations.PlacedInstructionRunsNext : Prop :=
  ∀ (s : State) (nbits w : Nat) (i : Instr), decodeTableWord nbits w = some i →
    step (s.withFetchWord nbits w) = (match exec i (poll (s.withFetchWord nbits w)) with
      | .next t => .next (if t.status = .running then sync (nextInput (s.withFetchWord nbits w)).elapsedNs t else t)
      | .fault r => .fault r
      | .refused r => .refused r) ∧
    (s.pc.toNat < 0xFFF → (s.withFetchWord nbits w).pc = s.pc) ∧
    (0xFFF ≤ s.pc.toNat → (s.withFetchWord nbits w).pc = 0x200) ∧
    (∀ a, a ≠ (s.withFetchWord nbits w).pc.toNat → a ≠ (s.withFetchWord nbits w).pc.toNat + 1 →
      (s.withFetchWord nbits w).readMem a = s.readMem a) ∧
    s.withFetchWord nbits w =
      { s with
        mem := (s.withFetchWord nbits w).mem
        pc := (s.withFetchWord nbits w).pc
        status := .running
        inputs := withoutQuit s.inputs } ∧
    (withoutQuit s.inputs).length = s.inputs.length ∧ (withoutQuit s.inputs).tail = s.inputs.tail ∧
    ∀ h rest, s.inputs = h :: rest → withoutQuit s.inputs = { h with quit := false } :: rest

/-- The input poll: each key is at the level of the last event about it, else as before, and nothing the spec gives the
machine but KEY changes (R34, R139). -/
def Obligations.PollAppliesKeyEvents : Prop :=
  ∀ s : State,
    (∀ k : RegIx, (poll s).keys[k.toNat]'k.isLt =
      match (nextInput s).events.reverse.find? (fun e => e.key = k) with
      | some e => e.level
      | none => s.keys[k.toNat]'k.isLt) ∧
    poll s = { s with keys := (poll s).keys, rndPort := (nextInput s).rnd, inputs := s.inputs.tail, polls := s.polls + 1 }

/-- An Invalid word halts with the exact address and word, and the step writes nothing but status after its poll; the
diagnostic names the address and the word (R124). -/
def Obligations.InvalidWordHalts : Prop :=
  ∀ (s : State) (e : DecodeError), s.status = .running → (nextInput s).quit = false → s.pc.toNat < 0xFFF →
    decodeWord s.fetchWord = .error e →
    step s = .next (HaltedWith (poll s) .invalidOpcode s.fetchWord 0) ∧
    (HaltedWith (poll s) .invalidOpcode s.fetchWord 0).status.diagnostic = some (.invalidOpcodeAt s.pc s.fetchWord)

/-- MemoryRange, by the fetch and by the four instructions that access memory, with the lowest out-of-range address,
and nothing else written (R127). -/
def Obligations.MemoryRangeHalts : Prop :=
  (∀ (s : State) (a : Nat), s.status = .running → (nextInput s).quit = false → 0xFFF ≤ s.pc.toNat →
    IsLeast { b | (b = s.pc.toNat ∨ b = s.pc.toNat + 1) ∧ 4096 ≤ b } a →
    step s = .next (HaltedWith (poll s) .memoryRange 0x0000 a)) ∧
  (∀ (s : State) (a : Nat) (x y : RegIx) (n : Nibble),
    IsLeast { b | s.i.toNat ≤ b ∧ b < s.i.toNat + n.toNat ∧ 4096 ≤ b } a →
    exec (.drwVxVyN x y n) s = .next (HaltedWith s .memoryRange (encode (.drwVxVyN x y n)) a)) ∧
  (∀ (s : State) (a : Nat) (x : RegIx), IsLeast { b | s.i.toNat ≤ b ∧ b < s.i.toNat + 3 ∧ 4096 ≤ b } a →
    exec (.ldBVx x) s = .next (HaltedWith s .memoryRange (encode (.ldBVx x)) a)) ∧
  (∀ (s : State) (a : Nat) (x : RegIx), IsLeast { b | s.i.toNat ≤ b ∧ b ≤ s.i.toNat + x.toNat ∧ 4096 ≤ b } a →
    exec (.ldMemVx x) s = .next (HaltedWith s .memoryRange (encode (.ldMemVx x)) a) ∧
    exec (.ldVxMem x) s = .next (HaltedWith s .memoryRange (encode (.ldVxMem x)) a))

/-- Quit stops the run before any further instruction step, whatever the word at PC, with its diagnostic; without a quit
at the poll no step ends in Quit (R132, R130). -/
def Obligations.QuitStopsBeforeTheStep : Prop :=
  ∀ s : State, s.status = .running →
    ((nextInput s).quit = true → step s = .next (HaltedWith (poll s) .quit 0x0000 0) ∧
      (HaltedWith (poll s) .quit 0x0000 0).status.diagnostic = some .terminatedByUserRequest) ∧
    ((nextInput s).quit = false → ∀ t, step s = .next t → ∀ a w info, t.status ≠ .halted .quit a w info)

/-- A halt is precise and final: the step that halts has written nothing but status after its poll, the record names
the PC it stopped at, and no number of further steps changes any state (R129). -/
def Obligations.HaltIsPreciseAndFinal : Prop :=
  ∀ s t : State, s.status = .running → step s = .next t → t.status ≠ .running →
    t = { poll s with status := t.status } ∧
    (∃ cause word info, t.status = .halted cause s.pc word info) ∧
    ∀ n, core.run n t = .next t

/-- There is no return from a halt (R131). -/
def Obligations.HaltedSessionStaysHalted : Prop :=
  ∀ (s : State) (n : Nat), s.status ≠ .running → core.run n s = .next s

/-- The machine always answers with a next state: no instruction and no step of any state is a fault or a refusal of
the model (there are no traps, R122, and every instruction is legal at all times, R134, which the spec derives; that a halt is a
next state is the model's reading, log 7). -/
def Obligations.EveryStepAnswers : Prop :=
  (∀ s : State, ∃ t, step s = .next t) ∧ (∀ (i : Instr) (s : State), ∃ t, exec i s = .next t)

/-! ### Flow -/

/-- CLS: every cell false, PC + 2, nothing else (R83). -/
def Obligations.ClsClearsTheScreen : Prop :=
  ∀ s : State, ∃ t, exec .cls s = .next t ∧ (∀ (x : Fin 64) (y : Fin 32), pixel t.fb x y = false) ∧
    t = { s with fb := t.fb, pc := s.pc + 2 } ∧ ∀ a, t.readMem a = s.readMem a

/-- RET: the popped address plus 2, at most 0x1001 where the invariant holds, SP one less, the entry kept; with SP = 0
the halt StackUnderflow (R84, R126). -/
def Obligations.RetPopsOrUnderflows : Prop :=
  (∀ s : State, s.sp.val = 0 → exec .ret s = .next (HaltedWith s .stackUnderflow 0x00EE 0)) ∧
  (∀ (s : State) (j : Fin 16), s.sp.val = j.val + 1 → ∃ t, exec .ret s = .next t ∧
    t.sp.val = j.val ∧ t.pc = s.stack[j.val] + 2 ∧
    (State.Inv s → t.pc.toNat = (s.stack[j.val]).toNat + 2 ∧ t.pc.toNat ≤ 0x1001) ∧
    t = { s with sp := t.sp, pc := t.pc } ∧ ∀ a, t.readMem a = s.readMem a)

/-- JP goes to NNN; JP V0 goes to NNN + V0, without wrap or reduction (R85, R104). -/
def Obligations.JumpsSetPc : Prop :=
  ∀ (s : State) (nnn : Addr12),
    (∃ t, exec (.jpNnn nnn) s = .next t ∧ t.pc.toNat = nnn.toNat ∧ ChangesOnlyPc s t) ∧
    (∃ t, exec (.jpV0Nnn nnn) s = .next t ∧ t.pc.toNat = nnn.toNat + (s.getV 0).toNat ∧ ChangesOnlyPc s t)

/-- CALL pushes its own address and goes to NNN; with SP = 16 the halt StackOverflow (R86, R125). -/
def Obligations.CallPushesOrOverflows : Prop :=
  (∀ (s : State) (nnn : Addr12), s.sp.val = 16 →
    exec (.callNnn nnn) s = .next (HaltedWith s .stackOverflow (encode (.callNnn nnn)) 16)) ∧
  (∀ (s : State) (nnn : Addr12) (j : Fin 16), s.sp.val = j.val → ∃ t, exec (.callNnn nnn) s = .next t ∧
    t.stack[j.val] = s.pc ∧ (∀ k : Fin 16, k ≠ j → t.stack[k.val] = s.stack[k.val]) ∧ t.sp.val = j.val + 1 ∧
    t.pc.toNat = nnn.toNat ∧ t = { s with stack := t.stack, sp := t.sp, pc := t.pc } ∧ ∀ a, t.readMem a = s.readMem a)

/-- A CALL followed by a RET leaves PC at the CALL's address plus 2 and SP unchanged (source §8); of the rest of the state
only the one stack entry differs, which keeps the CALL's address. -/
def Obligations.CallThenRetRoundTrip : Prop :=
  ∀ (s : State) (nnn : Addr12), s.sp.val < 16 → ∃ t u, exec (.callNnn nnn) s = .next t ∧ exec .ret t = .next u ∧
    u.pc = s.pc + 2 ∧ u.sp = s.sp ∧ (∀ k : Fin 16, u.stack[k.val] = if k.val = s.sp.val then s.pc else s.stack[k.val]) ∧
    u = { s with stack := u.stack, pc := u.pc }

/-- The four register and immediate skips: PC + 4 when the condition holds, else PC + 2; a word 0x9XYN with N ≠ 0 is
no instruction (R87, R88, R89, R90). -/
def Obligations.SkipsCompareRegisters : Prop :=
  ∀ (s : State) (x y : RegIx) (nn : Byte) (n : Nibble),
    (∃ t, exec (.seVxNn x nn) s = .next t ∧ t.pc = s.pc + (if s.getV x = nn then 4 else 2) ∧ ChangesOnlyPc s t) ∧
    (∃ t, exec (.sneVxNn x nn) s = .next t ∧ t.pc = s.pc + (if s.getV x ≠ nn then 4 else 2) ∧ ChangesOnlyPc s t) ∧
    (∃ t, exec (.seVxVy x y n) s = .next t ∧ t.pc = s.pc + (if s.getV x = s.getV y then 4 else 2) ∧ ChangesOnlyPc s t) ∧
    (∃ t, exec (.sneVxVy x y n) s = .next t ∧ t.pc = s.pc + (if s.getV x ≠ s.getV y then 4 else 2) ∧ ChangesOnlyPc s t) ∧
    (n ≠ 0 → ∃ e, decodeWord (BitVec.ofNat 16 (0x9000 + 0x100 * x.toNat + 0x10 * y.toNat + n.toNat)) = .error e)

/-! ### Arithmetic and logic -/

/-- LD VX, NN and ADD VX, NN: the sum wraps and no flag is written; every other register, VF included, is unchanged
(R92, R93). -/
def Obligations.ImmediateLoadAndAdd : Prop :=
  ∀ (s : State) (x : RegIx) (nn : Byte),
    (∃ t, exec (.ldVxNn x nn) s = .next t ∧ t.getV x = nn ∧ (∀ r, r ≠ x → t.getV r = s.getV r) ∧
      t.pc = s.pc + 2 ∧ ChangesOnlyVPc s t) ∧
    (∃ t, exec (.addVxNn x nn) s = .next t ∧ (t.getV x).toNat = ((s.getV x).toNat + nn.toNat) % 256 ∧
      (∀ r, r ≠ x → t.getV r = s.getV r) ∧ t.pc = s.pc + 2 ∧ ChangesOnlyVPc s t)

/-- LD, OR, AND, XOR of two registers: every other register, VF included, is unchanged (R94, R95, R96, R97). -/
def Obligations.CopyAndLogic : Prop :=
  ∀ (s : State) (x y : RegIx),
    (∃ t, exec (.ldVxVy x y) s = .next t ∧ t.getV x = s.getV y ∧ (∀ r, r ≠ x → t.getV r = s.getV r) ∧
      t.pc = s.pc + 2 ∧ ChangesOnlyVPc s t) ∧
    (∃ t, exec (.orVxVy x y) s = .next t ∧ t.getV x = s.getV x ||| s.getV y ∧ (∀ r, r ≠ x → t.getV r = s.getV r) ∧
      t.pc = s.pc + 2 ∧ ChangesOnlyVPc s t) ∧
    (∃ t, exec (.andVxVy x y) s = .next t ∧ t.getV x = s.getV x &&& s.getV y ∧ (∀ r, r ≠ x → t.getV r = s.getV r) ∧
      t.pc = s.pc + 2 ∧ ChangesOnlyVPc s t) ∧
    (∃ t, exec (.xorVxVy x y) s = .next t ∧ t.getV x = s.getV x ^^^ s.getV y ∧ (∀ r, r ≠ x → t.getV r = s.getV r) ∧
      t.pc = s.pc + 2 ∧ ChangesOnlyVPc s t)

/-- ADD VX, VY: VF is the carry, last, so that with X = F the flag wins over the sum (R98). -/
def Obligations.AddSetsCarry : Prop :=
  ∀ (s : State) (x y : RegIx), ∃ t, exec (.addVxVy x y) s = .next t ∧
    (x ≠ 0xF → (t.getV x).toNat = ((s.getV x).toNat + (s.getV y).toNat) % 256) ∧
    t.getV 0xF = (if (s.getV x).toNat + (s.getV y).toNat > 255 then 1 else 0) ∧
    (∀ r, r ≠ x → r ≠ 0xF → t.getV r = s.getV r) ∧ t.pc = s.pc + 2 ∧ ChangesOnlyVPc s t

/-- SUB and SUBN: both operand orders, VF is the no-borrow flag, last (R99, R101). -/
def Obligations.SubtractsSetNoBorrow : Prop :=
  ∀ (s : State) (x y : RegIx),
    (∃ t, exec (.subVxVy x y) s = .next t ∧
      (x ≠ 0xF → (t.getV x).toNat = ((s.getV x).toNat + 256 - (s.getV y).toNat) % 256) ∧
      t.getV 0xF = (if (s.getV x).toNat ≥ (s.getV y).toNat then 1 else 0) ∧
      (∀ r, r ≠ x → r ≠ 0xF → t.getV r = s.getV r) ∧ t.pc = s.pc + 2 ∧ ChangesOnlyVPc s t) ∧
    (∃ t, exec (.subnVxVy x y) s = .next t ∧
      (x ≠ 0xF → (t.getV x).toNat = ((s.getV y).toNat + 256 - (s.getV x).toNat) % 256) ∧
      t.getV 0xF = (if (s.getV y).toNat ≥ (s.getV x).toNat then 1 else 0) ∧
      (∀ r, r ≠ x → r ≠ 0xF → t.getV r = s.getV r) ∧ t.pc = s.pc + 2 ∧ ChangesOnlyVPc s t)

/-- SHR and SHL shift VX in place by one bit, whatever y is; VF is the bit shifted out, last (R100, R102). -/
def Obligations.ShiftsMoveOneBitOut : Prop :=
  ∀ (s : State) (x y : RegIx),
    (∃ t, exec (.shrVx x y) s = .next t ∧ (x ≠ 0xF → (t.getV x).toNat = (s.getV x).toNat / 2) ∧
      (t.getV 0xF).toNat = (s.getV x).toNat % 2 ∧
      (∀ r, r ≠ x → r ≠ 0xF → t.getV r = s.getV r) ∧ t.pc = s.pc + 2 ∧ ChangesOnlyVPc s t) ∧
    (∃ t, exec (.shlVx x y) s = .next t ∧ (x ≠ 0xF → (t.getV x).toNat = 2 * (s.getV x).toNat % 256) ∧
      (t.getV 0xF).toNat = (s.getV x).toNat / 128 ∧
      (∀ r, r ≠ x → r ≠ 0xF → t.getV r = s.getV r) ∧ t.pc = s.pc + 2 ∧ ChangesOnlyVPc s t)

/-! ### Index, random byte -/

/-- The three writers of I: LD I, ADD I (modulo 2^16, no flag), LD F (R103, R117, R118). -/
def Obligations.IndexRegisterWrites : Prop :=
  ∀ (s : State) (x : RegIx) (nnn : Addr12),
    (∃ t, exec (.ldINnn nnn) s = .next t ∧ t.i.toNat = nnn.toNat ∧ t.pc = s.pc + 2 ∧ ChangesOnlyIPc s t) ∧
    (∃ t, exec (.addIVx x) s = .next t ∧ t.i.toNat = (s.i.toNat + (s.getV x).toNat) % 65536 ∧ t.pc = s.pc + 2 ∧
      ChangesOnlyIPc s t) ∧
    (∃ t, exec (.ldFVx x) s = .next t ∧ t.i.toNat = 5 * (s.getV x).toNat ∧ t.pc = s.pc + 2 ∧ ChangesOnlyIPc s t)

/-- RND: whatever byte stands on port `rnd`, VX gets that byte AND NN; VF is unchanged unless X = F (R105). -/
def Obligations.RandomByteIsMasked : Prop :=
  ∀ (s : State) (x : RegIx) (nn : Byte), ∃ t, exec (.rndVxNn x nn) s = .next t ∧ t.getV x = s.rndPort &&& nn ∧
    (∀ r, r ≠ x → t.getV r = s.getV r) ∧ t.pc = s.pc + 2 ∧ ChangesOnlyVPc s t

/-! ### Draw -/

/-- DRW: every pixel under a 1 bit is flipped and no other, with wrap on both axes; VF is 1 exactly when a set pixel is
turned off; with a row out of range the halt MemoryRange, before any pixel or VF changes (R106, R107, R108). -/
def Obligations.DrawFlipsCoveredPixels : Prop :=
  ∀ (s : State) (x y : RegIx) (n : Nibble),
    ((n = 0 ∨ s.i.toNat + n.toNat ≤ 4096) → ∃ t, exec (.drwVxVyN x y n) s = .next t ∧
      (∀ px py, SpriteCovers s s.i.toNat n.toNat (s.getV x).toNat (s.getV y).toNat px py →
        pixel t.fb px py = !pixel s.fb px py) ∧
      (∀ px py, ¬SpriteCovers s s.i.toNat n.toNat (s.getV x).toNat (s.getV y).toNat px py →
        pixel t.fb px py = pixel s.fb px py) ∧
      ((∃ px py, SpriteCovers s s.i.toNat n.toNat (s.getV x).toNat (s.getV y).toNat px py ∧ pixel s.fb px py = true) →
        t.getV 0xF = 1) ∧
      ((∀ px py, SpriteCovers s s.i.toNat n.toNat (s.getV x).toNat (s.getV y).toNat px py → pixel s.fb px py = false) →
        t.getV 0xF = 0) ∧
      (∀ r, r ≠ 0xF → t.getV r = s.getV r) ∧
      t = { s with v := t.v, fb := t.fb, pc := s.pc + 2 } ∧ ∀ a, t.readMem a = s.readMem a) ∧
    (n ≠ 0 → 4096 < s.i.toNat + n.toNat →
      exec (.drwVxVyN x y n) s = .next (HaltedWith s .memoryRange (encode (.drwVxVyN x y n)) (max s.i.toNat 4096)))

/-- Drawing the same sprite twice at the same place, with no other change of FB between, restores every pixel, and the
second draw sets VF exactly when the first turned a pixel on; on a clear screen a sprite with a 1 bit gives VF = 0, then
VF = 1 (R110, which the spec derives from R106 and R108). -/
def Obligations.DrawTwiceRestores : Prop :=
  ∀ (s t s' u : State) (x y x' y' : RegIx) (n : Nibble), (n = 0 ∨ s.i.toNat + n.toNat ≤ 4096) →
    exec (.drwVxVyN x y n) s = .next t →
    s'.fb = t.fb → s'.i = s.i → (∀ a, s'.readMem a = s.readMem a) → s'.getV x' = s.getV x → s'.getV y' = s.getV y →
    exec (.drwVxVyN x' y' n) s' = .next u →
    (∀ px py, pixel u.fb px py = pixel s.fb px py) ∧
    (u.getV 0xF = 1 ↔ ∃ px py, pixel s.fb px py = false ∧ pixel t.fb px py = true) ∧
    ((∀ px py, pixel s.fb px py = false) →
      (∃ px py, SpriteCovers s s.i.toNat n.toNat (s.getV x).toNat (s.getV y).toNat px py) →
      t.getV 0xF = 0 ∧ u.getV 0xF = 1)

/-! ### Keys, timers, memory -/

/-- SKP and SKNP: the key numbered VX as a level; VX > 15 halts with KeyIndexRange, which LD VX, K never does (R111,
R112, R128). -/
def Obligations.KeySkips : Prop :=
  ∀ (s : State) (x : RegIx),
    (∀ k : Fin 16, (s.getV x).toNat = k.val →
      (∃ t, exec (.skpVx x) s = .next t ∧ t.pc = s.pc + (if s.keys[k.val] = true then 4 else 2) ∧ ChangesOnlyPc s t) ∧
      (∃ t, exec (.sknpVx x) s = .next t ∧ t.pc = s.pc + (if s.keys[k.val] = true then 2 else 4) ∧ ChangesOnlyPc s t)) ∧
    (15 < (s.getV x).toNat →
      exec (.skpVx x) s = .next (HaltedWith s .keyIndexRange (encode (.skpVx x)) (s.getV x).toNat) ∧
      exec (.sknpVx x) s = .next (HaltedWith s .keyIndexRange (encode (.sknpVx x)) (s.getV x).toNat)) ∧
    (∃ t, exec (.ldVxK x) s = .next t ∧ t.status = s.status)

/-- LD VX, K: the lowest-numbered key that is down; with none down the step changes nothing, PC included (R114). -/
def Obligations.KeyWaitCapturesLowest : Prop :=
  ∀ (s : State) (x : RegIx),
    (∀ k : Fin 16, s.keys[k.val] = true → (∀ j : Fin 16, j < k → s.keys[j.val] = false) →
      ∃ t, exec (.ldVxK x) s = .next t ∧ (t.getV x).toNat = k.val ∧ (∀ r, r ≠ x → t.getV r = s.getV r) ∧
        t.pc = s.pc + 2 ∧ ChangesOnlyVPc s t) ∧
    ((∀ k : Fin 16, s.keys[k.val] = false) → exec (.ldVxK x) s = .next s)

/-- LD VX, DT; LD DT, VX; LD ST, VX (R113, R115, R116). -/
def Obligations.TimerRegisterMoves : Prop :=
  ∀ (s : State) (x : RegIx),
    (∃ t, exec (.ldVxDt x) s = .next t ∧ t.getV x = s.dt ∧ (∀ r, r ≠ x → t.getV r = s.getV r) ∧ t.pc = s.pc + 2 ∧
      ChangesOnlyVPc s t) ∧
    (∃ t, exec (.ldDtVx x) s = .next t ∧ t = { s with dt := s.getV x, pc := s.pc + 2 } ∧ ∀ a, t.readMem a = s.readMem a) ∧
    (∃ t, exec (.ldStVx x) s = .next t ∧ t = { s with st := s.getV x, pc := s.pc + 2 } ∧ ∀ a, t.readMem a = s.readMem a)

/-- LD B, VX: hundreds, tens and ones at I, I + 1, I + 2, or the halt with no byte written (R119). -/
def Obligations.BcdStoresThreeDigits : Prop :=
  ∀ (s : State) (x : RegIx),
    (s.i.toNat + 2 < 4096 → ∃ t, exec (.ldBVx x) s = .next t ∧
      (t.readMem s.i.toNat).toNat = (s.getV x).toNat / 100 ∧
      (t.readMem (s.i.toNat + 1)).toNat = (s.getV x).toNat / 10 % 10 ∧
      (t.readMem (s.i.toNat + 2)).toNat = (s.getV x).toNat % 10 ∧
      (∀ a, a < s.i.toNat ∨ s.i.toNat + 2 < a → t.readMem a = s.readMem a) ∧ t = { s with mem := t.mem, pc := s.pc + 2 }) ∧
    (4096 ≤ s.i.toNat + 2 → exec (.ldBVx x) s = .next (HaltedWith s .memoryRange (encode (.ldBVx x)) (max s.i.toNat 4096)))

/-- LD [I], VX: V0..VX at I..I + X, I unchanged, or the halt with no byte written (R120). -/
def Obligations.BlockStoreCopiesRegisters : Prop :=
  ∀ (s : State) (x : RegIx),
    (s.i.toNat + x.toNat < 4096 → ∃ t, exec (.ldMemVx x) s = .next t ∧
      (∀ r : RegIx, r.toNat ≤ x.toNat → t.readMem (s.i.toNat + r.toNat) = s.getV r) ∧
      (∀ a, a < s.i.toNat ∨ s.i.toNat + x.toNat < a → t.readMem a = s.readMem a) ∧
      t = { s with mem := t.mem, pc := s.pc + 2 }) ∧
    (4096 ≤ s.i.toNat + x.toNat →
      exec (.ldMemVx x) s = .next (HaltedWith s .memoryRange (encode (.ldMemVx x)) (max s.i.toNat 4096)))

/-- LD VX, [I]: V0..VX from I..I + X, I unchanged, or the halt with no register written (R121). -/
def Obligations.BlockLoadCopiesMemory : Prop :=
  ∀ (s : State) (x : RegIx),
    (s.i.toNat + x.toNat < 4096 → ∃ t, exec (.ldVxMem x) s = .next t ∧
      (∀ r : RegIx, r.toNat ≤ x.toNat → t.getV r = s.readMem (s.i.toNat + r.toNat)) ∧
      (∀ r : RegIx, x.toNat < r.toNat → t.getV r = s.getV r) ∧
      t.pc = s.pc + 2 ∧ ChangesOnlyVPc s t) ∧
    (4096 ≤ s.i.toNat + x.toNat →
      exec (.ldVxMem x) s = .next (HaltedWith s .memoryRange (encode (.ldVxMem x)) (max s.i.toNat 4096)))

/-- Reading a byte returns the last value written to it, and a write leaves every other byte alone (R53,
and R57, which the spec derives from R45). -/
def Obligations.ByteReadsAsLastWritten : Prop :=
  ∀ (s : State) (a : Nat) (b : Byte), a < 4096 →
    (s.writeMem a b).readMem a = b ∧ ∀ c, c ≠ a → (s.writeMem a b).readMem c = s.readMem c

/-- A byte stored by FX33 or FX55 is fetched as written by the very next step: after a store over the next two bytes
of code, the next word is made of the bytes stored (R61 and R151, which the spec derives from R59 and R78). -/
def Obligations.StoredBytesAreFetched : Prop :=
  ∀ (s : State) (x : RegIx), s.i = s.pc + 2 →
    (1 ≤ x.toNat → s.i.toNat + x.toNat < 4096 →
      ∃ t, exec (.ldMemVx x) s = .next t ∧ t.fetchWord = wordOfBytes (s.getV 0) (s.getV 1)) ∧
    (s.i.toNat + 2 < 4096 → ∃ t, exec (.ldBVx x) s = .next t ∧
      t.fetchWord.toNat = 256 * ((s.getV x).toNat / 100) + (s.getV x).toNat / 10 % 10)

/-! ### Rules of the whole machine -/

/-- The core never writes KEY, never reads port `rnd` except in CXNN, and never writes FB except through 00E0 and DXYN:
no instruction does, and no step does beside the host's poll (R11). -/
def Obligations.PortsAndScreenAreTouchedOnlyAsNamed : Prop :=
  (∀ (i : Instr) (s t : State), exec i s = .next t →
    t.keys = s.keys ∧
    ((∀ x nn, i ≠ .rndVxNn x nn) → ∀ r, exec i { s with rndPort := r } = .next { t with rndPort := r }) ∧
    (t.fb ≠ s.fb → i = .cls ∨ ∃ x y n, i = .drwVxVyN x y n)) ∧
  (∀ s t : State, step s = .next t →
    (t.keys = s.keys ∨ t.keys = (poll s).keys) ∧
    (t.fb ≠ s.fb → decodeWord s.fetchWord = .ok .cls ∨ ∃ x y n, decodeWord s.fetchWord = .ok (.drwVxVyN x y n)))

/-- Each piece of state but PC, which every instruction may set (R24), has only the writers the spec names: V0..VF and
the flag VF (R21, R22), I (R26), STACK and SP (R27, R29), DT (R30), ST (R31), FB and KEY (R11), memory (R54), and status
(R123); an instruction never touches the synchronizer or the coming inputs. -/
def Obligations.OnlyNamedInstructionsWrite : Prop :=
  ∀ (i : Instr) (s t : State), exec i s = .next t →
    (∀ r, t.getV r ≠ s.getV r → i.writesAsDestination r = true ∨ (r = 0xF ∧ i.writesFlag = true)) ∧
    (t.i ≠ s.i → (∃ nnn, i = .ldINnn nnn) ∨ (∃ x, i = .addIVx x) ∨ ∃ x, i = .ldFVx x) ∧
    (t.stack ≠ s.stack → ∃ nnn, i = .callNnn nnn) ∧
    (t.sp ≠ s.sp → (∃ nnn, i = .callNnn nnn) ∨ i = .ret) ∧
    (t.dt ≠ s.dt → ∃ x, i = .ldDtVx x) ∧
    (t.st ≠ s.st → ∃ x, i = .ldStVx x) ∧
    (t.mem ≠ s.mem → (∃ x, i = .ldBVx x) ∨ ∃ x, i = .ldMemVx x) ∧
    (t.fb ≠ s.fb → i = .cls ∨ ∃ x y n, i = .drwVxVyN x y n) ∧
    (t.status ≠ s.status → i = .ret ∨ (∃ nnn, i = .callNnn nnn) ∨ (∃ x, i = .skpVx x ∨ i = .sknpVx x) ∨
      (∃ x y n, i = .drwVxVyN x y n) ∨ ∃ x, i = .ldBVx x ∨ i = .ldMemVx x ∨ i = .ldVxMem x) ∧
    t.keys = s.keys ∧ t.acc60 = s.acc60 ∧ t.rndPort = s.rndPort ∧ t.inputs = s.inputs ∧ t.polls = s.polls

/-- No instruction reads ST: run from two states that differ only in ST, an instruction does the same, and leaves ST
alone unless it is FX18 (R31). -/
def Obligations.SoundTimerIsNeverRead : Prop :=
  ∀ (i : Instr) (s t : State) (v : Byte), exec i s = .next t →
    ((∀ x, i ≠ .ldStVx x) → exec i { s with st := v } = .next { t with st := v }) ∧
    ((∃ x, i = .ldStVx x) → exec i { s with st := v } = .next t)

/-- An instruction halts only for a cause of R123's table that names it. -/
def Obligations.InstructionsHaltOnlyForTheirCauses : Prop :=
  ∀ (i : Instr) (s t : State), exec i s = .next t → t.status ≠ s.status →
    (s.sp.val = 16 ∧ ∃ nnn, i = .callNnn nnn) ∨ (s.sp.val = 0 ∧ i = .ret) ∨
    (∃ x, 15 < (s.getV x).toNat ∧ (i = .skpVx x ∨ i = .sknpVx x)) ∨
    (∃ x y n, i = .drwVxVyN x y n ∧ n ≠ 0 ∧ 4096 < s.i.toNat + n.toNat) ∨
    (∃ x, i = .ldBVx x ∧ 4096 ≤ s.i.toNat + 2) ∨
    (∃ x, (i = .ldMemVx x ∨ i = .ldVxMem x) ∧ 4096 ≤ s.i.toNat + x.toNat)

/-! ### The clock synchronizer -/

/-- One tick: both timers down by one, floored at zero, nothing else (R135). -/
def Obligations.TickFloorsAtZero : Prop :=
  ∀ s : State, (tick s).dt.toNat = s.dt.toNat - 1 ∧ (tick s).st.toNat = s.st.toNat - 1 ∧
    tick s = { s with dt := (tick s).dt, st := (tick s).st }

/-- sync delivers one tick for every whole period by which the accumulated time exceeds, by the strict comparison, and
keeps the rest exactly (R137). Times are in 1/60 ns, of which a period has 10^9. -/
def Obligations.SyncDeliversExactTicks : Prop :=
  ∀ (s : State) (e k : Nat), k * 1000000000 < s.acc60 + 60 * e ∨ k = 0 → s.acc60 + 60 * e ≤ (k + 1) * 1000000000 →
    (sync e s).dt.toNat = s.dt.toNat - k ∧ (sync e s).st.toNat = s.st.toNat - k ∧
    (sync e s).acc60 + k * 1000000000 = s.acc60 + 60 * e ∧
    sync e s = { s with dt := (sync e s).dt, st := (sync e s).st, acc60 := (sync e s).acc60 }

/-- No drift: two updates do what one update over the whole time does (R137's "catch-up"). -/
def Obligations.SyncHasNoDrift : Prop :=
  ∀ (s : State) (d e : Nat), sync e (sync d s) = sync (d + e) s

/-- The timer cadence: 500 cycles at 500 instructions per second, each of exactly its sleep, deliver 59 ticks to both
timers and leave one whole period in the accumulator; any later time of at most a period delivers the 60th to both and
stays in the accumulator (R154, 95_test_vectors.md 1.5). -/
def Obligations.TimerCadenceAt500 : Prop :=
  ∀ s : State, s.acc60 = 0 →
    ((sync (1000 * Config.cycleUs 500))^[500] s).dt.toNat = s.dt.toNat - 59 ∧
    ((sync (1000 * Config.cycleUs 500))^[500] s).st.toNat = s.st.toNat - 59 ∧
    ((sync (1000 * Config.cycleUs 500))^[500] s).acc60 = Config.tick60 ∧
    ∀ e, 0 < e → e ≤ 16666666 →
      (sync e ((sync (1000 * Config.cycleUs 500))^[500] s)).dt.toNat = s.dt.toNat - 60 ∧
      (sync e ((sync (1000 * Config.cycleUs 500))^[500] s)).st.toNat = s.st.toNat - 60 ∧
      (sync e ((sync (1000 * Config.cycleUs 500))^[500] s)).acc60 = 60 * e

/-- The rate: the argument, or the default, which is positive, "if omitted or zero"; the cycle is 1000000 div rate
(R136). -/
def Obligations.RateAndCycle : Prop :=
  (∀ n, 0 < n → Config.resolveRate (some n) = n) ∧ Config.resolveRate (some 0) = Config.defaultRate ∧
  Config.resolveRate none = Config.defaultRate ∧ 0 < Config.defaultRate ∧
  (∀ r, 0 < r → r * Config.cycleUs r ≤ 1000000 ∧ 1000000 < r * (Config.cycleUs r + 1))

/-! ### The invariant -/

/-- The invariant holds right after reset. -/
def Obligations.InvariantAtReset : Prop := State.Inv State.reset

/-- Loading an image keeps the invariant. -/
def Obligations.LoadKeepsInvariant : Prop :=
  ∀ (image : List Byte) (s t : State), State.Inv s → s.status = .running → load image s = .ok t → State.Inv t

/-- Every step keeps the invariant, from every state that has it: canonical memory, bounded PC and stack entries, no
whole tick left over, and a halt record that names the word, the cause and the address it came from. -/
def Obligations.StepKeepsInvariant : Prop :=
  ∀ s t : State, State.Inv s → step s = .next t → State.Inv t
end

