-- ==== Sys2Proof/Laws/State.lean ====
section
/-! SUPPORT. One lemma per field per update of the state: what each named operation leaves in every field. -/

namespace Sys2Proof.Machine

/-! ### writeMem -/

@[simp] theorem State.writeMem_v (s : State) (a : Nat) (b : Byte) : (s.writeMem a b).v = s.v := rfl
@[simp] theorem State.writeMem_i (s : State) (a : Nat) (b : Byte) : (s.writeMem a b).i = s.i := rfl
@[simp] theorem State.writeMem_pc (s : State) (a : Nat) (b : Byte) : (s.writeMem a b).pc = s.pc := rfl
@[simp] theorem State.writeMem_sp (s : State) (a : Nat) (b : Byte) : (s.writeMem a b).sp = s.sp := rfl
@[simp] theorem State.writeMem_stack (s : State) (a : Nat) (b : Byte) : (s.writeMem a b).stack = s.stack := rfl
@[simp] theorem State.writeMem_dt (s : State) (a : Nat) (b : Byte) : (s.writeMem a b).dt = s.dt := rfl
@[simp] theorem State.writeMem_st (s : State) (a : Nat) (b : Byte) : (s.writeMem a b).st = s.st := rfl
@[simp] theorem State.writeMem_fb (s : State) (a : Nat) (b : Byte) : (s.writeMem a b).fb = s.fb := rfl
@[simp] theorem State.writeMem_keys (s : State) (a : Nat) (b : Byte) : (s.writeMem a b).keys = s.keys := rfl
@[simp] theorem State.writeMem_mem (s : State) (a : Nat) (b : Byte) : (s.writeMem a b).mem = Memory.write s.mem a b := rfl
@[simp] theorem State.writeMem_status (s : State) (a : Nat) (b : Byte) : (s.writeMem a b).status = s.status := rfl
@[simp] theorem State.writeMem_acc60 (s : State) (a : Nat) (b : Byte) : (s.writeMem a b).acc60 = s.acc60 := rfl
@[simp] theorem State.writeMem_rndPort (s : State) (a : Nat) (b : Byte) : (s.writeMem a b).rndPort = s.rndPort := rfl
@[simp] theorem State.writeMem_inputs (s : State) (a : Nat) (b : Byte) : (s.writeMem a b).inputs = s.inputs := rfl
@[simp] theorem State.writeMem_polls (s : State) (a : Nat) (b : Byte) : (s.writeMem a b).polls = s.polls := rfl

/-! ### setV -/

@[simp] theorem State.setV_v (s : State) (x : RegIx) (b : Byte) : (s.setV x b).v = s.v.set x.toNat b x.isLt := rfl
@[simp] theorem State.setV_i (s : State) (x : RegIx) (b : Byte) : (s.setV x b).i = s.i := rfl
@[simp] theorem State.setV_pc (s : State) (x : RegIx) (b : Byte) : (s.setV x b).pc = s.pc := rfl
@[simp] theorem State.setV_sp (s : State) (x : RegIx) (b : Byte) : (s.setV x b).sp = s.sp := rfl
@[simp] theorem State.setV_stack (s : State) (x : RegIx) (b : Byte) : (s.setV x b).stack = s.stack := rfl
@[simp] theorem State.setV_dt (s : State) (x : RegIx) (b : Byte) : (s.setV x b).dt = s.dt := rfl
@[simp] theorem State.setV_st (s : State) (x : RegIx) (b : Byte) : (s.setV x b).st = s.st := rfl
@[simp] theorem State.setV_fb (s : State) (x : RegIx) (b : Byte) : (s.setV x b).fb = s.fb := rfl
@[simp] theorem State.setV_keys (s : State) (x : RegIx) (b : Byte) : (s.setV x b).keys = s.keys := rfl
@[simp] theorem State.setV_mem (s : State) (x : RegIx) (b : Byte) : (s.setV x b).mem = s.mem := rfl
@[simp] theorem State.setV_status (s : State) (x : RegIx) (b : Byte) : (s.setV x b).status = s.status := rfl
@[simp] theorem State.setV_acc60 (s : State) (x : RegIx) (b : Byte) : (s.setV x b).acc60 = s.acc60 := rfl
@[simp] theorem State.setV_rndPort (s : State) (x : RegIx) (b : Byte) : (s.setV x b).rndPort = s.rndPort := rfl
@[simp] theorem State.setV_inputs (s : State) (x : RegIx) (b : Byte) : (s.setV x b).inputs = s.inputs := rfl
@[simp] theorem State.setV_polls (s : State) (x : RegIx) (b : Byte) : (s.setV x b).polls = s.polls := rfl

/-! ### setFlag -/

@[simp] theorem State.setFlag_v (s : State) (f : Bool) : (s.setFlag f).v = s.v.set 15 (if f then 1 else 0) (by decide) := rfl
@[simp] theorem State.setFlag_i (s : State) (f : Bool) : (s.setFlag f).i = s.i := rfl
@[simp] theorem State.setFlag_pc (s : State) (f : Bool) : (s.setFlag f).pc = s.pc := rfl
@[simp] theorem State.setFlag_sp (s : State) (f : Bool) : (s.setFlag f).sp = s.sp := rfl
@[simp] theorem State.setFlag_stack (s : State) (f : Bool) : (s.setFlag f).stack = s.stack := rfl
@[simp] theorem State.setFlag_dt (s : State) (f : Bool) : (s.setFlag f).dt = s.dt := rfl
@[simp] theorem State.setFlag_st (s : State) (f : Bool) : (s.setFlag f).st = s.st := rfl
@[simp] theorem State.setFlag_fb (s : State) (f : Bool) : (s.setFlag f).fb = s.fb := rfl
@[simp] theorem State.setFlag_keys (s : State) (f : Bool) : (s.setFlag f).keys = s.keys := rfl
@[simp] theorem State.setFlag_mem (s : State) (f : Bool) : (s.setFlag f).mem = s.mem := rfl
@[simp] theorem State.setFlag_status (s : State) (f : Bool) : (s.setFlag f).status = s.status := rfl
@[simp] theorem State.setFlag_acc60 (s : State) (f : Bool) : (s.setFlag f).acc60 = s.acc60 := rfl
@[simp] theorem State.setFlag_rndPort (s : State) (f : Bool) : (s.setFlag f).rndPort = s.rndPort := rfl
@[simp] theorem State.setFlag_inputs (s : State) (f : Bool) : (s.setFlag f).inputs = s.inputs := rfl
@[simp] theorem State.setFlag_polls (s : State) (f : Bool) : (s.setFlag f).polls = s.polls := rfl

/-! ### setI -/

@[simp] theorem State.setI_v (s : State) (a : Word) : (s.setI a).v = s.v := rfl
@[simp] theorem State.setI_i (s : State) (a : Word) : (s.setI a).i = a := rfl
@[simp] theorem State.setI_pc (s : State) (a : Word) : (s.setI a).pc = s.pc := rfl
@[simp] theorem State.setI_sp (s : State) (a : Word) : (s.setI a).sp = s.sp := rfl
@[simp] theorem State.setI_stack (s : State) (a : Word) : (s.setI a).stack = s.stack := rfl
@[simp] theorem State.setI_dt (s : State) (a : Word) : (s.setI a).dt = s.dt := rfl
@[simp] theorem State.setI_st (s : State) (a : Word) : (s.setI a).st = s.st := rfl
@[simp] theorem State.setI_fb (s : State) (a : Word) : (s.setI a).fb = s.fb := rfl
@[simp] theorem State.setI_keys (s : State) (a : Word) : (s.setI a).keys = s.keys := rfl
@[simp] theorem State.setI_mem (s : State) (a : Word) : (s.setI a).mem = s.mem := rfl
@[simp] theorem State.setI_status (s : State) (a : Word) : (s.setI a).status = s.status := rfl
@[simp] theorem State.setI_acc60 (s : State) (a : Word) : (s.setI a).acc60 = s.acc60 := rfl
@[simp] theorem State.setI_rndPort (s : State) (a : Word) : (s.setI a).rndPort = s.rndPort := rfl
@[simp] theorem State.setI_inputs (s : State) (a : Word) : (s.setI a).inputs = s.inputs := rfl
@[simp] theorem State.setI_polls (s : State) (a : Word) : (s.setI a).polls = s.polls := rfl

/-! ### advance -/

@[simp] theorem State.advance_v (s : State) : (s.advance).v = s.v := rfl
@[simp] theorem State.advance_i (s : State) : (s.advance).i = s.i := rfl
@[simp] theorem State.advance_pc (s : State) : (s.advance).pc = s.pc + 2 := rfl
@[simp] theorem State.advance_sp (s : State) : (s.advance).sp = s.sp := rfl
@[simp] theorem State.advance_stack (s : State) : (s.advance).stack = s.stack := rfl
@[simp] theorem State.advance_dt (s : State) : (s.advance).dt = s.dt := rfl
@[simp] theorem State.advance_st (s : State) : (s.advance).st = s.st := rfl
@[simp] theorem State.advance_fb (s : State) : (s.advance).fb = s.fb := rfl
@[simp] theorem State.advance_keys (s : State) : (s.advance).keys = s.keys := rfl
@[simp] theorem State.advance_mem (s : State) : (s.advance).mem = s.mem := rfl
@[simp] theorem State.advance_status (s : State) : (s.advance).status = s.status := rfl
@[simp] theorem State.advance_acc60 (s : State) : (s.advance).acc60 = s.acc60 := rfl
@[simp] theorem State.advance_rndPort (s : State) : (s.advance).rndPort = s.rndPort := rfl
@[simp] theorem State.advance_inputs (s : State) : (s.advance).inputs = s.inputs := rfl
@[simp] theorem State.advance_polls (s : State) : (s.advance).polls = s.polls := rfl

/-! ### jump -/

@[simp] theorem State.jump_v (s : State) (w : Word) : (s.jump w).v = s.v := rfl
@[simp] theorem State.jump_i (s : State) (w : Word) : (s.jump w).i = s.i := rfl
@[simp] theorem State.jump_pc (s : State) (w : Word) : (s.jump w).pc = w := rfl
@[simp] theorem State.jump_sp (s : State) (w : Word) : (s.jump w).sp = s.sp := rfl
@[simp] theorem State.jump_stack (s : State) (w : Word) : (s.jump w).stack = s.stack := rfl
@[simp] theorem State.jump_dt (s : State) (w : Word) : (s.jump w).dt = s.dt := rfl
@[simp] theorem State.jump_st (s : State) (w : Word) : (s.jump w).st = s.st := rfl
@[simp] theorem State.jump_fb (s : State) (w : Word) : (s.jump w).fb = s.fb := rfl
@[simp] theorem State.jump_keys (s : State) (w : Word) : (s.jump w).keys = s.keys := rfl
@[simp] theorem State.jump_mem (s : State) (w : Word) : (s.jump w).mem = s.mem := rfl
@[simp] theorem State.jump_status (s : State) (w : Word) : (s.jump w).status = s.status := rfl
@[simp] theorem State.jump_acc60 (s : State) (w : Word) : (s.jump w).acc60 = s.acc60 := rfl
@[simp] theorem State.jump_rndPort (s : State) (w : Word) : (s.jump w).rndPort = s.rndPort := rfl
@[simp] theorem State.jump_inputs (s : State) (w : Word) : (s.jump w).inputs = s.inputs := rfl
@[simp] theorem State.jump_polls (s : State) (w : Word) : (s.jump w).polls = s.polls := rfl

/-! ### skipIf -/

@[simp] theorem State.skipIf_v (s : State) (c : Bool) : (s.skipIf c).v = s.v := rfl
@[simp] theorem State.skipIf_i (s : State) (c : Bool) : (s.skipIf c).i = s.i := rfl
@[simp] theorem State.skipIf_pc (s : State) (c : Bool) : (s.skipIf c).pc = s.pc + (if c then 4 else 2) := rfl
@[simp] theorem State.skipIf_sp (s : State) (c : Bool) : (s.skipIf c).sp = s.sp := rfl
@[simp] theorem State.skipIf_stack (s : State) (c : Bool) : (s.skipIf c).stack = s.stack := rfl
@[simp] theorem State.skipIf_dt (s : State) (c : Bool) : (s.skipIf c).dt = s.dt := rfl
@[simp] theorem State.skipIf_st (s : State) (c : Bool) : (s.skipIf c).st = s.st := rfl
@[simp] theorem State.skipIf_fb (s : State) (c : Bool) : (s.skipIf c).fb = s.fb := rfl
@[simp] theorem State.skipIf_keys (s : State) (c : Bool) : (s.skipIf c).keys = s.keys := rfl
@[simp] theorem State.skipIf_mem (s : State) (c : Bool) : (s.skipIf c).mem = s.mem := rfl
@[simp] theorem State.skipIf_status (s : State) (c : Bool) : (s.skipIf c).status = s.status := rfl
@[simp] theorem State.skipIf_acc60 (s : State) (c : Bool) : (s.skipIf c).acc60 = s.acc60 := rfl
@[simp] theorem State.skipIf_rndPort (s : State) (c : Bool) : (s.skipIf c).rndPort = s.rndPort := rfl
@[simp] theorem State.skipIf_inputs (s : State) (c : Bool) : (s.skipIf c).inputs = s.inputs := rfl
@[simp] theorem State.skipIf_polls (s : State) (c : Bool) : (s.skipIf c).polls = s.polls := rfl

/-! ### halt -/

@[simp] theorem State.halt_v (s : State) (c : HaltCause) (w : Word) (k : Nat) : (s.halt c w k).v = s.v := rfl
@[simp] theorem State.halt_i (s : State) (c : HaltCause) (w : Word) (k : Nat) : (s.halt c w k).i = s.i := rfl
@[simp] theorem State.halt_pc (s : State) (c : HaltCause) (w : Word) (k : Nat) : (s.halt c w k).pc = s.pc := rfl
@[simp] theorem State.halt_sp (s : State) (c : HaltCause) (w : Word) (k : Nat) : (s.halt c w k).sp = s.sp := rfl
@[simp] theorem State.halt_stack (s : State) (c : HaltCause) (w : Word) (k : Nat) : (s.halt c w k).stack = s.stack := rfl
@[simp] theorem State.halt_dt (s : State) (c : HaltCause) (w : Word) (k : Nat) : (s.halt c w k).dt = s.dt := rfl
@[simp] theorem State.halt_st (s : State) (c : HaltCause) (w : Word) (k : Nat) : (s.halt c w k).st = s.st := rfl
@[simp] theorem State.halt_fb (s : State) (c : HaltCause) (w : Word) (k : Nat) : (s.halt c w k).fb = s.fb := rfl
@[simp] theorem State.halt_keys (s : State) (c : HaltCause) (w : Word) (k : Nat) : (s.halt c w k).keys = s.keys := rfl
@[simp] theorem State.halt_mem (s : State) (c : HaltCause) (w : Word) (k : Nat) : (s.halt c w k).mem = s.mem := rfl
@[simp] theorem State.halt_status (s : State) (c : HaltCause) (w : Word) (k : Nat) : (s.halt c w k).status = .halted c s.pc w k := rfl
@[simp] theorem State.halt_acc60 (s : State) (c : HaltCause) (w : Word) (k : Nat) : (s.halt c w k).acc60 = s.acc60 := rfl
@[simp] theorem State.halt_rndPort (s : State) (c : HaltCause) (w : Word) (k : Nat) : (s.halt c w k).rndPort = s.rndPort := rfl
@[simp] theorem State.halt_inputs (s : State) (c : HaltCause) (w : Word) (k : Nat) : (s.halt c w k).inputs = s.inputs := rfl
@[simp] theorem State.halt_polls (s : State) (c : HaltCause) (w : Word) (k : Nat) : (s.halt c w k).polls = s.polls := rfl

/-! ### The bytes and registers a state holds, after an update of something else -/

@[simp] theorem State.getV_writeMem (s : State) (a : Nat) (b : Byte) (r : RegIx) : (s.writeMem a b).getV r = s.getV r := rfl
@[simp] theorem State.readMem_setV (s : State) (x : RegIx) (b : Byte) (c : Nat) : (s.setV x b).readMem c = s.readMem c := rfl
@[simp] theorem State.readMem_setFlag (s : State) (f : Bool) (c : Nat) : (s.setFlag f).readMem c = s.readMem c := rfl
@[simp] theorem State.readMem_setI (s : State) (a : Word) (c : Nat) : (s.setI a).readMem c = s.readMem c := rfl
@[simp] theorem State.getV_setI (s : State) (a : Word) (r : RegIx) : (s.setI a).getV r = s.getV r := rfl
@[simp] theorem State.readMem_advance (s : State) (c : Nat) : (s.advance).readMem c = s.readMem c := rfl
@[simp] theorem State.getV_advance (s : State) (r : RegIx) : (s.advance).getV r = s.getV r := rfl
@[simp] theorem State.readMem_jump (s : State) (w : Word) (c : Nat) : (s.jump w).readMem c = s.readMem c := rfl
@[simp] theorem State.getV_jump (s : State) (w : Word) (r : RegIx) : (s.jump w).getV r = s.getV r := rfl
@[simp] theorem State.readMem_skipIf (s : State) (d : Bool) (c : Nat) : (s.skipIf d).readMem c = s.readMem c := rfl
@[simp] theorem State.getV_skipIf (s : State) (c : Bool) (r : RegIx) : (s.skipIf c).getV r = s.getV r := rfl
@[simp] theorem State.readMem_halt (s : State) (h : HaltCause) (w : Word) (k : Nat) (c : Nat) : (s.halt h w k).readMem c = s.readMem c := rfl
@[simp] theorem State.getV_halt (s : State) (c : HaltCause) (w : Word) (k : Nat) (r : RegIx) : (s.halt c w k).getV r = s.getV r := rfl

/-! ### tick and poll -/

@[simp] theorem tick_v (s : State) : (tick s).v = s.v := rfl
@[simp] theorem tick_i (s : State) : (tick s).i = s.i := rfl
@[simp] theorem tick_pc (s : State) : (tick s).pc = s.pc := rfl
@[simp] theorem tick_sp (s : State) : (tick s).sp = s.sp := rfl
@[simp] theorem tick_stack (s : State) : (tick s).stack = s.stack := rfl
@[simp] theorem tick_dt (s : State) : (tick s).dt = decFloor s.dt := rfl
@[simp] theorem tick_st (s : State) : (tick s).st = decFloor s.st := rfl
@[simp] theorem tick_fb (s : State) : (tick s).fb = s.fb := rfl
@[simp] theorem tick_keys (s : State) : (tick s).keys = s.keys := rfl
@[simp] theorem tick_mem (s : State) : (tick s).mem = s.mem := rfl
@[simp] theorem tick_status (s : State) : (tick s).status = s.status := rfl
@[simp] theorem tick_acc60 (s : State) : (tick s).acc60 = s.acc60 := rfl
@[simp] theorem tick_rndPort (s : State) : (tick s).rndPort = s.rndPort := rfl
@[simp] theorem tick_inputs (s : State) : (tick s).inputs = s.inputs := rfl
@[simp] theorem tick_polls (s : State) : (tick s).polls = s.polls := rfl

@[simp] theorem poll_v (s : State) : (poll s).v = s.v := rfl
@[simp] theorem poll_i (s : State) : (poll s).i = s.i := rfl
@[simp] theorem poll_pc (s : State) : (poll s).pc = s.pc := rfl
@[simp] theorem poll_sp (s : State) : (poll s).sp = s.sp := rfl
@[simp] theorem poll_stack (s : State) : (poll s).stack = s.stack := rfl
@[simp] theorem poll_dt (s : State) : (poll s).dt = s.dt := rfl
@[simp] theorem poll_st (s : State) : (poll s).st = s.st := rfl
@[simp] theorem poll_fb (s : State) : (poll s).fb = s.fb := rfl
@[simp] theorem poll_keys (s : State) : (poll s).keys = applyEvents s.keys (nextInput s).events := rfl
@[simp] theorem poll_mem (s : State) : (poll s).mem = s.mem := rfl
@[simp] theorem poll_status (s : State) : (poll s).status = s.status := rfl
@[simp] theorem poll_acc60 (s : State) : (poll s).acc60 = s.acc60 := rfl
@[simp] theorem poll_rndPort (s : State) : (poll s).rndPort = (nextInput s).rnd := rfl
@[simp] theorem poll_inputs (s : State) : (poll s).inputs = s.inputs.tail := rfl
@[simp] theorem poll_polls (s : State) : (poll s).polls = s.polls + 1 := rfl

@[simp] theorem readMem_poll (s : State) (c : Nat) : (poll s).readMem c = s.readMem c := rfl
@[simp] theorem getV_poll (s : State) (r : RegIx) : (poll s).getV r = s.getV r := rfl
@[simp] theorem fetchWord_poll (s : State) : (poll s).fetchWord = s.fetchWord := rfl

end Sys2Proof.Machine
end

