-- ==== Sys2Proof/Laws/Clock.lean ====
section
/-! SUPPORT. The synchronizer in closed form: how many ticks the catch-up loop delivers and what it leaves. -/

namespace Sys2Proof.Machine

/-- A timer after k ticks: k lower, floored at zero. -/
def decBy (k : Nat) (t : Byte) : Byte := BitVec.ofNat 8 (t.toNat - k)

@[simp] theorem decBy_toNat (k : Nat) (t : Byte) : (decBy k t).toNat = t.toNat - k := by
  have := t.isLt
  simp only [decBy, BitVec.toNat_ofNat]
  omega

@[simp] theorem decBy_zero (t : Byte) : decBy 0 t = t := by
  apply BitVec.eq_of_toNat_eq
  simp

theorem decFloor_toNat (t : Byte) : (decFloor t).toNat = t.toNat - 1 := by
  have := t.isLt
  simp only [decFloor]
  split
  · rw [BitVec.toNat_sub, show (1 : Byte).toNat = 1 from rfl]
    omega
  · rw [show (0 : Byte).toNat = 0 from rfl]
    omega

theorem decBy_decFloor (k : Nat) (t : Byte) : decBy k (decFloor t) = decBy (k + 1) t := by
  apply BitVec.eq_of_toNat_eq
  rw [decBy_toNat, decFloor_toNat, decBy_toNat]
  omega

theorem decBy_decBy (j k : Nat) (t : Byte) : decBy j (decBy k t) = decBy (k + j) t := by
  apply BitVec.eq_of_toNat_eq
  simp
  omega

/-- The catch-up loop with enough fuel, where the accumulator holds between k and k + 1 periods: k ticks. -/
theorem syncLoop_eq {fuel k : Nat} {s : State} (hf : k ≤ fuel) (hlo : k * Config.tick60 < s.acc60 ∨ k = 0)
    (hhi : s.acc60 ≤ (k + 1) * Config.tick60) :
    syncLoop fuel s = { s with dt := decBy k s.dt, st := decBy k s.st, acc60 := s.acc60 - k * Config.tick60 } := by
  generalize hT : Config.tick60 = T at hlo hhi ⊢
  induction k generalizing fuel s with
  | zero =>
    have hn : ¬s.acc60 > T := by omega
    cases fuel <;> simp [syncLoop, hT, hn]
  | succ k ih =>
    obtain ⟨f, rfl⟩ : ∃ f, fuel = f + 1 := ⟨fuel - 1, by omega⟩
    rw [Nat.succ_mul] at hhi
    have hlo' : k * T + T < s.acc60 := by
      rcases hlo with h | h
      · rwa [Nat.succ_mul] at h
      · omega
    have hg : s.acc60 > T := by omega
    rw [syncLoop, hT, if_pos hg, ih (by omega) (.inl (by simp only; omega)) (by simp only; omega)]
    have e : s.acc60 - T - k * T = s.acc60 - (k + 1) * T := by
      rw [Nat.succ_mul]
      omega
    simp only [tick, decBy_decFloor, e]

/-- The ticks one update delivers: one for every period the accumulated time strictly exceeds (R137). -/
def ticksOf (total : Nat) : Nat := (total - 1) / Config.tick60

theorem ticksOf_bounds (total : Nat) :
    (ticksOf total * Config.tick60 < total ∨ ticksOf total = 0) ∧ total ≤ (ticksOf total + 1) * Config.tick60 := by
  have hT : Config.tick60 = 1000000000 := rfl
  simp only [ticksOf, hT]
  omega

/-- The caught-up state in closed form. -/
theorem caughtUp_eq (e : Nat) (s : State) :
    caughtUp e s =
      { s with
        dt := decBy (ticksOf (s.acc60 + 60 * e)) s.dt
        st := decBy (ticksOf (s.acc60 + 60 * e)) s.st
        acc60 := s.acc60 + 60 * e - ticksOf (s.acc60 + 60 * e) * Config.tick60 } := by
  have hb := ticksOf_bounds (s.acc60 + 60 * e)
  rw [caughtUp, syncLoop_eq (k := ticksOf (s.acc60 + 60 * e)) (Nat.div_le_div_right (by omega)) hb.1 hb.2]

/-- The update is the loop of R137 and nothing less. -/
theorem sync_eq_caughtUp (e : Nat) (s : State) : sync e s = caughtUp e s := by
  rw [sync, caughtUp_eq]

/-- The synchronizer's update in closed form. -/
theorem sync_eq (e : Nat) (s : State) :
    sync e s =
      { s with
        dt := decBy (ticksOf (s.acc60 + 60 * e)) s.dt
        st := decBy (ticksOf (s.acc60 + 60 * e)) s.st
        acc60 := s.acc60 + 60 * e - ticksOf (s.acc60 + 60 * e) * Config.tick60 } :=
  (sync_eq_caughtUp e s).trans (caughtUp_eq e s)

/-- No whole period stays in the accumulator (R137). -/
theorem sync_acc_le (e : Nat) (s : State) : (sync e s).acc60 ≤ Config.tick60 := by
  have hb := (ticksOf_bounds (s.acc60 + 60 * e)).2
  have hm := Nat.add_one_mul (ticksOf (s.acc60 + 60 * e)) Config.tick60
  rw [sync_eq]
  simp only
  omega

end Sys2Proof.Machine
end

