-- ==== Sys2Proof/Laws/Decode.lean ====
section
/-! SUPPORT. The fields and formats of an instruction word as numbers, and each field of each format. -/

namespace Sys2Proof

/-- Concatenation of bit strings as arithmetic, the high part first. -/
theorem toNat_concat {a b : Nat} (x : BitVec a) (y : BitVec b) : (x ++ y).toNat = x.toNat * 2 ^ b + y.toNat := by
  rw [BitVec.toNat_append, ← Nat.shiftLeft_add_eq_or_of_lt y.isLt, Nat.shiftLeft_eq]

theorem formatA_toNat (op : Nibble) (nnn : Addr12) : (formatA op nnn).toNat = op.toNat * 4096 + nnn.toNat := by
  simp only [formatA]
  rw [toNat_concat]
  norm_num

theorem formatXNN_toNat (op : Nibble) (x : RegIx) (nn : Byte) :
    (formatXNN op x nn).toNat = op.toNat * 4096 + x.toNat * 256 + nn.toNat := by
  simp only [formatXNN]
  rw [toNat_concat, toNat_concat]
  omega

theorem formatXYN_toNat (op : Nibble) (x y : RegIx) (n : Nibble) :
    (formatXYN op x y n).toNat = op.toNat * 4096 + x.toNat * 256 + y.toNat * 16 + n.toNat := by
  simp only [formatXYN]
  rw [toNat_concat, toNat_concat, toNat_concat]
  omega

theorem fieldOp_toNat (w : Word) : (fieldOp w).toNat = w.toNat / 4096 := by
  have := w.isLt
  simp [fieldOp, Nat.shiftRight_eq_div_pow]
  omega

theorem fieldX_toNat (w : Word) : (fieldX w).toNat = w.toNat / 256 % 16 := by
  simp [fieldX, Nat.shiftRight_eq_div_pow]

theorem fieldY_toNat (w : Word) : (fieldY w).toNat = w.toNat / 16 % 16 := by
  simp [fieldY, Nat.shiftRight_eq_div_pow]

theorem fieldN_toNat (w : Word) : (fieldN w).toNat = w.toNat % 16 := by
  simp [fieldN]

theorem fieldNn_toNat (w : Word) : (fieldNn w).toNat = w.toNat % 256 := by
  simp [fieldNn]

theorem fieldNnn_toNat (w : Word) : (fieldNnn w).toNat = w.toNat % 4096 := by
  simp [fieldNnn]

/-! ### The fields of each format -/

@[simp] theorem fieldOp_formatA (op : Nibble) (nnn : Addr12) : fieldOp (formatA op nnn) = op := by
  apply BitVec.eq_of_toNat_eq
  rw [fieldOp_toNat, formatA_toNat]
  omega

@[simp] theorem fieldNnn_formatA (op : Nibble) (nnn : Addr12) : fieldNnn (formatA op nnn) = nnn := by
  apply BitVec.eq_of_toNat_eq
  rw [fieldNnn_toNat, formatA_toNat]
  omega

@[simp] theorem fieldOp_formatXNN (op : Nibble) (x : RegIx) (nn : Byte) : fieldOp (formatXNN op x nn) = op := by
  apply BitVec.eq_of_toNat_eq
  rw [fieldOp_toNat, formatXNN_toNat]
  omega

@[simp] theorem fieldX_formatXNN (op : Nibble) (x : RegIx) (nn : Byte) : fieldX (formatXNN op x nn) = x := by
  apply BitVec.eq_of_toNat_eq
  rw [fieldX_toNat, formatXNN_toNat]
  omega

@[simp] theorem fieldNn_formatXNN (op : Nibble) (x : RegIx) (nn : Byte) : fieldNn (formatXNN op x nn) = nn := by
  apply BitVec.eq_of_toNat_eq
  rw [fieldNn_toNat, formatXNN_toNat]
  omega

@[simp] theorem fieldOp_formatXYN (op : Nibble) (x y : RegIx) (n : Nibble) : fieldOp (formatXYN op x y n) = op := by
  apply BitVec.eq_of_toNat_eq
  rw [fieldOp_toNat, formatXYN_toNat]
  omega

@[simp] theorem fieldX_formatXYN (op : Nibble) (x y : RegIx) (n : Nibble) : fieldX (formatXYN op x y n) = x := by
  apply BitVec.eq_of_toNat_eq
  rw [fieldX_toNat, formatXYN_toNat]
  omega

@[simp] theorem fieldY_formatXYN (op : Nibble) (x y : RegIx) (n : Nibble) : fieldY (formatXYN op x y n) = y := by
  apply BitVec.eq_of_toNat_eq
  rw [fieldY_toNat, formatXYN_toNat]
  omega

@[simp] theorem fieldN_formatXYN (op : Nibble) (x y : RegIx) (n : Nibble) : fieldN (formatXYN op x y n) = n := by
  apply BitVec.eq_of_toNat_eq
  rw [fieldN_toNat, formatXYN_toNat]
  omega

/-! ### A word is its fields in a format -/

theorem formatA_of_fields (w : Word) : formatA (fieldOp w) (fieldNnn w) = w := by
  apply BitVec.eq_of_toNat_eq
  rw [formatA_toNat, fieldOp_toNat, fieldNnn_toNat]
  omega

theorem formatXNN_of_fields (w : Word) : formatXNN (fieldOp w) (fieldX w) (fieldNn w) = w := by
  apply BitVec.eq_of_toNat_eq
  rw [formatXNN_toNat, fieldOp_toNat, fieldX_toNat, fieldNn_toNat]
  omega

theorem formatXYN_of_fields (w : Word) : formatXYN (fieldOp w) (fieldX w) (fieldY w) (fieldN w) = w := by
  apply BitVec.eq_of_toNat_eq
  rw [formatXYN_toNat, fieldOp_toNat, fieldX_toNat, fieldY_toNat, fieldN_toNat]
  omega

/-! ### Bytes of a word -/

@[simp] theorem wordOfBytes_toNat (hi lo : Byte) : (wordOfBytes hi lo).toNat = hi.toNat * 256 + lo.toNat := by
  simp only [wordOfBytes]
  rw [toNat_concat]
  omega

@[simp] theorem wordOfBytes_highByte_lowByte (w : Word) : wordOfBytes (highByte w) (lowByte w) = w := by
  apply BitVec.eq_of_toNat_eq
  rw [wordOfBytes_toNat]
  simp [highByte, lowByte, Nat.shiftRight_eq_div_pow]
  omega

/-- What decodeTableWord answers, by the word decoder. -/
theorem decodeTableWord_eq_some {nbits w : Nat} {i : Instr} :
    decodeTableWord nbits w = some i ↔ decodeWord (tableWord nbits w) = .ok i := by
  simp only [decodeTableWord, decode, wordOfBytes_highByte_lowByte]
  cases decodeWord (tableWord nbits w) <;> simp [Except.map]

end Sys2Proof
end

