-- ==== Sys2Proof/Laws/Draw.lean ====
section
/-! SUPPORT. The draw unit: what one bit, one row and a whole sprite do to a pixel and to the collision bit. No pixel is
drawn twice by one DXYN (43_draw.md R109), which is why a bit sees the pixel as it was before the draw. -/

namespace Sys2Proof.Machine

theorem pixel_flipPixel (fb : Framebuffer) (x px : Fin 64) (y py : Fin 32) :
    pixel (flipPixel fb x y) px py = if px = x ∧ py = y then !pixel fb px py else pixel fb px py := by
  simp only [pixel, flipPixel, Vector.getElem_set]
  by_cases hx : px = x
  · subst hx
    by_cases hy : py = y
    · subst hy
      simp
    · have : ¬y.val = py.val := fun e => hy (Fin.ext e.symm)
      simp [hy, this]
  · have : ¬x.val = px.val := fun e => hx (Fin.ext e.symm)
    simp [hx, this]

/-- A bit changes a pixel exactly when it is 1 and the pixel is its own. -/
theorem pixel_drawBit_ne (bit : Bool) (x px : Fin 64) (y py : Fin 32) (p : Canvas) :
    pixel (drawBit bit x y p).1 px py ≠ pixel p.1 px py ↔ bit = true ∧ px = x ∧ py = y := by
  cases bit
  · simp [drawBit]
  · simp only [drawBit, if_true, pixel_flipPixel]
    by_cases h : px = x ∧ py = y <;> simp [h]

theorem hit_drawBit (bit : Bool) (x : Fin 64) (y : Fin 32) (p : Canvas) :
    (drawBit bit x y p).2 = true ↔ p.2 = true ∨ (bit = true ∧ pixel p.1 x y = true) := by
  cases bit <;> simp [drawBit]

/-- Within the 8 bits of a row the columns are distinct (R109). -/
theorem spriteColumn_injective {x0 : Byte} {b c : Nat} (hb : b < 8) (hc : c < 8) (h : spriteColumn x0 b = spriteColumn x0 c) : b = c := by
  have := congrArg Fin.val h
  simp only [spriteColumn] at this
  omega

/-- Within the at most 15 rows of a sprite the rows are distinct (R109). -/
theorem spriteRow_injective {y0 : Byte} {r q : Nat} (hr : r < 16) (hq : q < 16) (h : spriteRow y0 r = spriteRow y0 q) : r = q := by
  have := congrArg Fin.val h
  simp only [spriteRow] at this
  omega

/-- Two disjoint changes of a Bool, one after the other. -/
theorem bool_ne_chain {a b c : Bool} {P Q : Prop} (h1 : b ≠ a ↔ P) (h2 : c ≠ b ↔ Q) (hd : ¬(P ∧ Q)) : c ≠ a ↔ P ∨ Q := by
  by_cases hp : P <;> by_cases hq : Q
  · exact absurd ⟨hp, hq⟩ hd
  · have e : c = b := by by_contra h; exact hq (h2.1 h)
    simpa [hp, e] using h1.2 hp
  · have e : b = a := by by_contra h; exact hp (h1.1 h)
    simpa [hq, e] using h2.2 hq
  · have e1 : b = a := by by_contra h; exact hp (h1.1 h)
    have e2 : c = b := by by_contra h; exact hq (h2.1 h)
    simp [hp, hq, e1, e2]

/-! ### A row -/

theorem pixel_drawBits_ne (row x0 : Byte) (y : Fin 32) (p : Canvas) {k : Nat} (hk : k ≤ 8) (px : Fin 64) (py : Fin 32) :
    pixel (drawBits row x0 y p k).1 px py ≠ pixel p.1 px py ↔
      ∃ b < k, spriteBit row b = true ∧ px = spriteColumn x0 b ∧ py = y := by
  induction k with
  | zero => simp [drawBits]
  | succ k ih =>
    have h := bool_ne_chain (ih (by omega)) (pixel_drawBit_ne (spriteBit row k) (spriteColumn x0 k) px y py (drawBits row x0 y p k))
      (by
        rintro ⟨⟨b, hb, _, e, _⟩, _, e', _⟩
        have := spriteColumn_injective (by omega) (by omega) (e.symm.trans e')
        omega)
    rw [drawBits, h]
    constructor
    · rintro (⟨b, hb, r⟩ | r)
      · exact ⟨b, by omega, r⟩
      · exact ⟨k, by omega, r⟩
    · rintro ⟨b, hb, r⟩
      by_cases e : b = k
      · subst e
        exact .inr r
      · exact .inl ⟨b, by omega, r⟩

theorem hit_drawBits (row x0 : Byte) (y : Fin 32) (p : Canvas) {k : Nat} (hk : k ≤ 8) :
    (drawBits row x0 y p k).2 = true ↔ p.2 = true ∨ ∃ b < k, spriteBit row b = true ∧ pixel p.1 (spriteColumn x0 b) y = true := by
  induction k with
  | zero => simp [drawBits]
  | succ k ih =>
    have same : pixel (drawBits row x0 y p k).1 (spriteColumn x0 k) y = pixel p.1 (spriteColumn x0 k) y := by
      by_contra h
      obtain ⟨b, hb, _, e, _⟩ := (pixel_drawBits_ne row x0 y p (by omega : k ≤ 8) _ _).1 h
      have := spriteColumn_injective (by omega) (by omega) e
      omega
    rw [drawBits, hit_drawBit, ih (by omega), same]
    constructor
    · rintro ((h | ⟨b, hb, r⟩) | r)
      · exact .inl h
      · exact .inr ⟨b, by omega, r⟩
      · exact .inr ⟨k, by omega, r⟩
    · rintro (h | ⟨b, hb, r⟩)
      · exact .inl (.inl h)
      · by_cases e : b = k
        · subst e
          exact .inr r
        · exact .inl (.inr ⟨b, by omega, r⟩)

/-! ### A sprite -/

/-- A sprite of k ≤ 15 rows changes a pixel exactly when it has a 1 bit there. -/
theorem pixel_drawRows_ne (s : State) (x0 y0 : Byte) (p : Canvas) {k : Nat} (hk : k ≤ 15) (px : Fin 64) (py : Fin 32) :
    pixel (drawRows s x0 y0 p k).1 px py ≠ pixel p.1 px py ↔
      ∃ r < k, ∃ b < 8, spriteBit (s.readMem (s.i.toNat + r)) b = true ∧ px = spriteColumn x0 b ∧ py = spriteRow y0 r := by
  induction k with
  | zero => simp [drawRows]
  | succ k ih =>
    have h := bool_ne_chain (ih (by omega))
      (pixel_drawBits_ne (s.readMem (s.i.toNat + k)) x0 (spriteRow y0 k) (drawRows s x0 y0 p k) (le_refl 8) px py)
      (by
        rintro ⟨⟨r, hr, _, _, _, _, e⟩, _, _, _, _, e'⟩
        have := spriteRow_injective (by omega) (by omega) (e.symm.trans e')
        omega)
    rw [drawRows, h]
    constructor
    · rintro (⟨r, hr, q⟩ | q)
      · exact ⟨r, by omega, q⟩
      · exact ⟨k, by omega, q⟩
    · rintro ⟨r, hr, q⟩
      by_cases e : r = k
      · subst e
        exact .inr q
      · exact .inl ⟨r, by omega, q⟩

/-- The collision bit is set exactly when a 1 bit of the sprite finds its pixel on. -/
theorem hit_drawRows (s : State) (x0 y0 : Byte) (p : Canvas) {k : Nat} (hk : k ≤ 15) :
    (drawRows s x0 y0 p k).2 = true ↔ p.2 = true ∨
      ∃ r < k, ∃ b < 8, spriteBit (s.readMem (s.i.toNat + r)) b = true ∧ pixel p.1 (spriteColumn x0 b) (spriteRow y0 r) = true := by
  induction k with
  | zero => simp [drawRows]
  | succ k ih =>
    have same : ∀ b, pixel (drawRows s x0 y0 p k).1 (spriteColumn x0 b) (spriteRow y0 k) = pixel p.1 (spriteColumn x0 b) (spriteRow y0 k) := by
      intro b
      by_contra h
      obtain ⟨r, hr, _, _, _, _, e⟩ := (pixel_drawRows_ne s x0 y0 p (by omega : k ≤ 15) _ _).1 h
      have := spriteRow_injective (by omega) (by omega) e
      omega
    rw [drawRows, hit_drawBits _ _ _ _ (le_refl 8), ih (by omega)]
    simp only [same]
    constructor
    · rintro ((h | ⟨r, hr, q⟩) | q)
      · exact .inl h
      · exact .inr ⟨r, by omega, q⟩
      · exact .inr ⟨k, by omega, q⟩
    · rintro (h | ⟨r, hr, q⟩)
      · exact .inl (.inl h)
      · by_cases e : r = k
        · subst e
          exact .inr q
        · exact .inl (.inr ⟨r, by omega, q⟩)

/-- A sprite bit as the number the spec writes: (row >> (7 − b)) & 1. -/
theorem spriteBit_eq_true {row : Byte} {b : Nat} : spriteBit row b = true ↔ row.toNat / 2 ^ (7 - b) % 2 = 1 := by
  simp [spriteBit, BitVec.getLsbD, Nat.testBit_eq_decide_div_mod_eq]

end Sys2Proof.Machine
end

