-- ==== Sys2Proof/Laws/Memory.lean ====
section
/-! SUPPORT. Memory: read after write, what a run of bytes written leaves, and that every memory operation keeps the
canonical form. -/

namespace Sys2Proof.Machine

/-! ### Reads after a write -/

@[simp] theorem Memory.read_nil (c : Nat) : Memory.read [] c = Memory.unlisted c := rfl

theorem Memory.read_cons (x : Host.Cell) (m : Memory) (c : Nat) :
    Memory.read (x :: m) c = if x.1 = c then x.2 else Memory.read m c := by
  simp only [Memory.read, List.find?_cons]
  by_cases h : x.1 = c
  · simp [h]
  · have : (x.1 == c) = false := by simp [h]
    simp [this, h]

/-- Taking the cells of one address out. -/
theorem Memory.read_filter (m : Memory) (a c : Nat) :
    Memory.read (m.filter (fun x => x.1 != a)) c = if c = a then Memory.unlisted a else Memory.read m c := by
  induction m with
  | nil => by_cases h : c = a <;> simp [h]
  | cons x m ih =>
    by_cases hx : x.1 = a
    · have : (x.1 != a) = false := by simp [hx]
      rw [List.filter_cons, this, if_neg (by decide), ih, Memory.read_cons, hx]
      by_cases h : c = a
      · simp [h]
      · simp [h, Ne.symm h]
    · have : (x.1 != a) = true := by simp [hx]
      rw [List.filter_cons, this, if_pos rfl, Memory.read_cons, ih, Memory.read_cons]
      by_cases h : c = a
      · subst h
        simp [hx]
      · simp [h]

/-- Putting a cell in, where no cell has its address. -/
theorem Memory.read_insert {m : Memory} {a : Nat} (b : Byte) (c : Nat) (hm : ∀ x ∈ m, x.1 ≠ a) :
    Memory.read (Memory.insert a b m) c = if c = a then b else Memory.read m c := by
  induction m with
  | nil => rw [Memory.insert, Memory.read_cons]; simp only [eq_comm]
  | cons x m ih =>
    have hx : x.1 ≠ a := hm x (by simp)
    rw [Memory.insert]
    split
    · rw [Memory.read_cons]
      simp only [eq_comm]
    · rw [Memory.read_cons, ih (fun y hy => hm y (by simp [hy])), Memory.read_cons]
      by_cases h : c = a
      · subst h
        simp [hx]
      · simp [h]

/-- Read after write, at the same address and at every other, with no premise on the memory. -/
theorem Memory.read_write {m : Memory} {a c : Nat} {b : Byte} (ha : a < Config.memSize) :
    Memory.read (Memory.write m a b) c = if c = a then b else Memory.read m c := by
  simp only [Memory.write, ha, if_true]
  split
  · rw [Memory.read_filter]
    by_cases h : c = a <;> simp [*]
  · rw [Memory.read_insert _ _ (by simp), Memory.read_filter]
    by_cases h : c = a <;> simp [h]

@[simp] theorem Memory.write_outside {m : Memory} {a : Nat} {b : Byte} (ha : Config.memSize ≤ a) : Memory.write m a b = m := by
  simp [Memory.write, Nat.not_lt.mpr ha]

theorem State.readMem_writeMem {s : State} {a c : Nat} {b : Byte} (ha : a < Config.memSize) :
    (s.writeMem a b).readMem c = if c = a then b else s.readMem c :=
  Memory.read_write ha

/-! ### A run of bytes -/

@[simp] theorem State.writeBytes_nil (s : State) (a : Nat) : s.writeBytes a [] = s := rfl

/-- Writing bytes changes nothing but memory. -/
theorem State.writeBytes_eq (s : State) (a : Nat) (bs : List Byte) : s.writeBytes a bs = { s with mem := (s.writeBytes a bs).mem } := by
  induction bs generalizing s a with
  | nil => rfl
  | cons b bs ih => rw [State.writeBytes, ih]; rfl

/-- What every address reads as after a run of bytes is written inside memory. -/
theorem State.readMem_writeBytes {s : State} {a : Nat} {bs : List Byte} (h : a + bs.length ≤ Config.memSize) (c : Nat) :
    (s.writeBytes a bs).readMem c = if a ≤ c ∧ c < a + bs.length then bs.getD (c - a) 0 else s.readMem c := by
  induction bs generalizing s a with
  | nil =>
    have : ¬(a ≤ c ∧ c < a) := by omega
    simp [this]
  | cons b bs ih =>
    simp only [List.length_cons] at h
    rw [State.writeBytes, ih (by omega), State.readMem_writeMem (by omega)]
    by_cases hc : c = a
    · subst hc
      simp
    · by_cases h2 : a + 1 ≤ c ∧ c < a + 1 + bs.length
      · obtain ⟨k, rfl⟩ : ∃ k, c = a + 1 + k := ⟨c - (a + 1), by omega⟩
        have h3 : a + 1 + k - a = k + 1 := by omega
        have h5 : k < bs.length := by omega
        simp [h3, h5]
        omega
      · have : ¬(a ≤ c ∧ c < a + (b :: bs).length) := by simp only [List.length_cons]; omega
        rw [if_neg h2, if_neg hc, if_neg this]

/-! ### The canonical form -/

theorem Memory.wfFrom_mono {lo lo' : Nat} {m : Memory} (h : lo' ≤ lo) (hm : Memory.wfFrom lo m = true) : Memory.wfFrom lo' m = true := by
  cases m with
  | nil => rfl
  | cons c m =>
    simp only [Memory.wfFrom, Bool.and_eq_true, decide_eq_true_eq] at hm ⊢
    exact ⟨⟨⟨le_trans h hm.1.1.1, hm.1.1.2⟩, hm.1.2⟩, hm.2⟩

theorem Memory.wfFrom_filter {lo : Nat} {m : Memory} (p : Host.Cell → Bool) (hm : Memory.wfFrom lo m = true) :
    Memory.wfFrom lo (m.filter p) = true := by
  induction m generalizing lo with
  | nil => rfl
  | cons c m ih =>
    simp only [Memory.wfFrom, Bool.and_eq_true, decide_eq_true_eq] at hm
    by_cases hp : p c = true
    · simp only [List.filter_cons, hp, if_true, Memory.wfFrom, Bool.and_eq_true, decide_eq_true_eq]
      exact ⟨hm.1, ih hm.2⟩
    · simp only [List.filter_cons, hp]
      exact Memory.wfFrom_mono (by omega) (ih hm.2)

theorem Memory.wfFrom_insert {lo a : Nat} {b : Byte} {m : Memory} (hlo : lo ≤ a) (ha : a < Config.memSize)
    (hb : b ≠ Memory.unlisted a) (hne : ∀ x ∈ m, x.1 ≠ a) (hm : Memory.wfFrom lo m = true) :
    Memory.wfFrom lo (Memory.insert a b m) = true := by
  induction m generalizing lo with
  | nil => simp [Memory.insert, Memory.wfFrom, hlo, ha, hb]
  | cons c m ih =>
    have hc : c.1 ≠ a := hne c (by simp)
    simp only [Memory.wfFrom, Bool.and_eq_true, decide_eq_true_eq] at hm
    by_cases hlt : a < c.1
    · simp only [Memory.insert, hlt, if_true, Memory.wfFrom, Bool.and_eq_true, decide_eq_true_eq]
      exact ⟨⟨⟨hlo, ha⟩, by simp [hb]⟩, ⟨⟨by omega, hm.1.1.2⟩, hm.1.2⟩, hm.2⟩
    · simp only [Memory.insert, hlt, if_false, Memory.wfFrom, Bool.and_eq_true, decide_eq_true_eq]
      exact ⟨hm.1, ih (by omega) (fun x hx => hne x (by simp [hx])) hm.2⟩

/-- Every write keeps the canonical form. -/
theorem Memory.wf_write {m : Memory} {a : Nat} {b : Byte} (hm : Memory.wf m = true) : Memory.wf (Memory.write m a b) = true := by
  unfold Memory.write
  split
  · split
    · exact Memory.wfFrom_filter _ hm
    · exact Memory.wfFrom_insert (Nat.zero_le _) ‹_› ‹_› (by simp) (Memory.wfFrom_filter _ hm)
  · exact hm

theorem State.wf_writeBytes {s : State} {a : Nat} {bs : List Byte} (hm : Memory.wf s.mem = true) :
    Memory.wf (s.writeBytes a bs).mem = true := by
  induction bs generalizing s a with
  | nil => exact hm
  | cons b bs ih => exact ih (Memory.wf_write hm)

theorem reset_mem_wf : Memory.wf State.reset.mem = true := rfl

end Sys2Proof.Machine
end

