-- ==== Sys2Proof/Laws/Registers.lean ====
section
/-! SUPPORT. Registers, the block load, the stack, the keys and the range check: one lemma for each that says what it
can do. -/

namespace Sys2Proof.Machine

/-! ### General registers -/

theorem State.getV_setV (s : State) (x r : RegIx) (b : Byte) : (s.setV x b).getV r = if r = x then b else s.getV r := by
  simp only [State.getV, State.setV, Vector.getElem_set]
  by_cases h : r = x
  · simp [h]
  · have : ¬x.toNat = r.toNat := fun e => h (BitVec.eq_of_toNat_eq e.symm)
    simp [h, this]

@[simp] theorem State.getV_setV_self (s : State) (x : RegIx) (b : Byte) : (s.setV x b).getV x = b := by
  simp [State.getV_setV]

theorem State.getV_setV_of_ne {s : State} {x r : RegIx} {b : Byte} (h : r ≠ x) : (s.setV x b).getV r = s.getV r := by
  simp [State.getV_setV, h]

theorem State.getV_setFlag (s : State) (r : RegIx) (f : Bool) :
    (s.setFlag f).getV r = if r = 0xF then (if f then 1 else 0) else s.getV r :=
  State.getV_setV s 0xF r _

/-! ### The block load -/

/-- Loading registers changes nothing but V. -/
theorem State.loadRegs_eq (s : State) (a k : Nat) : s.loadRegs a k = { s with v := (s.loadRegs a k).v } := by
  induction k with
  | zero => rfl
  | succ k ih => rw [State.loadRegs, State.setV, ih]

/-- Register r after the first k registers are loaded. -/
theorem State.getV_loadRegs (s : State) (a k : Nat) (hk : k ≤ 16) (r : RegIx) :
    (s.loadRegs a k).getV r = if r.toNat < k then s.readMem (a + r.toNat) else s.getV r := by
  induction k with
  | zero => simp [State.loadRegs]
  | succ k ih =>
    rw [State.loadRegs, State.getV_setV, ih (by omega)]
    have hk4 : (BitVec.ofNat 4 k).toNat = k := by simp; omega
    by_cases h : r = BitVec.ofNat 4 k
    · have : r.toNat = k := by rw [h, hk4]
      simp [h, hk4]
    · have : r.toNat ≠ k := fun e => h (by apply BitVec.eq_of_toNat_eq; rw [hk4, e])
      have h2 : (r.toNat < k + 1) = (r.toNat < k) := by simp only [eq_iff_iff]; omega
      simp [h, h2]

@[simp] theorem State.length_regsUpTo (s : State) (x : RegIx) : (s.regsUpTo x).length = x.toNat + 1 := by
  have := x.isLt
  simp [State.regsUpTo]
  omega

theorem State.getD_regsUpTo (s : State) {x r : RegIx} (h : r.toNat ≤ x.toNat) : (s.regsUpTo x).getD r.toNat 0 = s.getV r := by
  have hr := r.isLt
  have hr' : r.toNat < 16 := hr
  simp [State.regsUpTo, State.getV, List.getD_eq_getElem?_getD, Nat.lt_succ_of_le h, hr']

/-! ### The stack (R29) -/

/-- All that Push can do. -/
theorem State.push_cases (s : State) (w : Word) :
    (∃ h : s.sp.val < 16, s.push w = some { s with stack := s.stack.set s.sp.val w h, sp := ⟨s.sp.val + 1, Nat.succ_lt_succ h⟩ }) ∨
    (s.sp.val = 16 ∧ s.push w = none) := by
  by_cases h : s.sp.val < 16
  · exact .inl ⟨h, by simp [State.push, h]⟩
  · have := s.sp.isLt
    exact .inr ⟨by omega, by simp [State.push, h]⟩

/-- All that Pop can do. -/
theorem State.pop_cases (s : State) :
    (∃ (j : Fin 16), s.sp.val = j.val + 1 ∧ s.pop = some (s.stack[j.val], { s with sp := ⟨j.val, by omega⟩ })) ∨
    (s.sp.val = 0 ∧ s.pop = none) := by
  by_cases h : 0 < s.sp.val
  · have := s.sp.isLt
    exact .inl ⟨⟨s.sp.val - 1, by omega⟩, by simp; omega, by simp [State.pop, h]⟩
  · exact .inr ⟨by omega, by simp [State.pop, h]⟩

/-! ### Keys -/

theorem State.keyAt_of_lt {s : State} {k : Byte} {j : Fin 16} (h : k.toNat = j.val) : s.keyAt k = some s.keys[j.val] := by
  have := j.isLt
  simp [State.keyAt, h]

theorem State.keyAt_of_ge {s : State} {k : Byte} (h : 15 < k.toNat) : s.keyAt k = none := by
  have : ¬k.toNat < 16 := by omega
  simp [State.keyAt, this]

theorem State.lowestKey_eq_none {s : State} : s.lowestKey = none ↔ ∀ k : Fin 16, s.keys[k.val] = false := by
  simp [State.lowestKey]

/-! ### The range check (R55) -/

theorem outOfRange_eq_none {base len : Nat} : outOfRange base len = none ↔ len = 0 ∨ base + len ≤ Config.memSize := by
  simp only [outOfRange]
  split
  · simp [*]
  · split <;> simp [*]

/-- The address it names is the lowest at or above MEM_SIZE among those touched. -/
theorem outOfRange_eq_some {base len a : Nat} :
    outOfRange base len = some a ↔ IsLeast { b | base ≤ b ∧ b < base + len ∧ Config.memSize ≤ b } a := by
  have key : len ≠ 0 → ¬base + len ≤ Config.memSize →
      IsLeast { b | base ≤ b ∧ b < base + len ∧ Config.memSize ≤ b } (max base Config.memSize) := by
    intro h0 h1
    refine ⟨⟨le_max_left _ _, ?_, le_max_right _ _⟩, fun b hb => max_le hb.1 hb.2.2⟩
    rcases le_total base Config.memSize with h | h
    · rw [max_eq_right h]
      omega
    · rw [max_eq_left h]
      omega
  constructor
  · intro h
    simp only [outOfRange] at h
    split at h
    · simp at h
    · split at h
      · simp at h
      · simp only [Option.some.injEq] at h
        subst h
        exact key ‹_› ‹_›
  · intro h
    have h0 : len ≠ 0 := by
      rintro rfl
      have := h.1.1
      have := h.1.2.1
      omega
    have h1 : ¬base + len ≤ Config.memSize := by
      have := h.1.2.1
      have := h.1.2.2
      omega
    simp only [outOfRange, h0, h1, if_false, Option.some.injEq]
    exact (key h0 h1).unique h

/-- All that a range-checked instruction can do: its effect, or the halt MemoryRange. -/
theorem guardRange_cases (base len : Nat) (w : Word) (s t : State) :
    ((len = 0 ∨ base + len ≤ Config.memSize) ∧ guardRange base len w s t = .next t) ∨
    (len ≠ 0 ∧ Config.memSize < base + len ∧
      guardRange base len w s t = .next (s.halt .memoryRange w (max base Config.memSize))) := by
  by_cases h0 : len = 0
  · exact .inl ⟨.inl h0, by simp [guardRange, outOfRange, h0]⟩
  · by_cases h1 : base + len ≤ Config.memSize
    · exact .inl ⟨.inr h1, by simp [guardRange, outOfRange, h0, h1]⟩
    · exact .inr ⟨h0, by omega, by simp [guardRange, outOfRange, h0, h1]⟩

theorem guardRange_inside {base len : Nat} {w : Word} {s t : State} (h : len = 0 ∨ base + len ≤ Config.memSize) :
    guardRange base len w s t = .next t := by
  rcases guardRange_cases base len w s t with ⟨_, e⟩ | ⟨h0, h1, _⟩
  · exact e
  · omega

theorem guardRange_outside {base len : Nat} {w : Word} {s t : State} (h0 : len ≠ 0) (h1 : Config.memSize < base + len) :
    guardRange base len w s t = .next (s.halt .memoryRange w (max base Config.memSize)) := by
  rcases guardRange_cases base len w s t with ⟨h, _⟩ | ⟨_, _, e⟩
  · omega
  · exact e

end Sys2Proof.Machine
end

