-- ==== Sys2Proof/Laws/Step.lean ====
section
/-! SUPPORT. What the shared parts of the meanings, the instruction step and the loop iteration can do, each said once. -/

namespace Sys2Proof.Machine

/-! ### The shared parts of the meanings -/

theorem writeResult_eq (x : RegIx) (b : Byte) (s : State) : writeResult x b s = .next (s.setV x b).advance := rfl

theorem writeResultAndFlag_eq (x : RegIx) (b : Byte) (f : Bool) (s : State) :
    writeResultAndFlag x b f s = .next ((s.setV x b).setFlag f).advance := rfl

/-- Every register after a result and its flag: the flag wins over the result when VX is VF (R22). -/
theorem getV_resultAndFlag (s : State) (x r : RegIx) (b : Byte) (f : Bool) :
    (((s.setV x b).setFlag f).advance).getV r = if r = 0xF then (if f then 1 else 0) else if r = x then b else s.getV r := by
  rw [State.getV_advance, State.getV_setFlag, State.getV_setV]

/-- All that a key skip can do. -/
theorem skipOnKey_cases (x : RegIx) (c : Bool) (w : Word) (s : State) :
    (∃ k : Fin 16, (s.getV x).toNat = k.val ∧ skipOnKey x c w s = .next (s.skipIf (s.keys[k.val] == c))) ∨
    (15 < (s.getV x).toNat ∧ skipOnKey x c w s = .next (s.halt .keyIndexRange w (s.getV x).toNat)) := by
  by_cases h : (s.getV x).toNat < 16
  · exact .inl ⟨⟨_, h⟩, rfl, by simp [skipOnKey, State.keyAt_of_lt (j := ⟨_, h⟩) rfl]⟩
  · exact .inr ⟨by omega, by simp [skipOnKey, State.keyAt_of_ge (by omega : 15 < (s.getV x).toNat)]⟩

/-! ### The instruction step and the loop iteration -/

/-- All that the instruction step can do (R78). -/
theorem instructionStep_cases (s : State) :
    (Config.memSize ≤ s.pc.toNat + 1 ∧ instructionStep s = .next (s.halt .memoryRange 0 (max s.pc.toNat Config.memSize))) ∨
    (s.pc.toNat + 1 < Config.memSize ∧ ∃ e, decodeWord s.fetchWord = .error e ∧
      instructionStep s = .next (s.halt .invalidOpcode s.fetchWord 0)) ∨
    (s.pc.toNat + 1 < Config.memSize ∧ ∃ i, decodeWord s.fetchWord = .ok i ∧ instructionStep s = exec i s) := by
  by_cases h : s.pc.toNat + 1 < Config.memSize
  · cases hd : decodeWord s.fetchWord with
    | error e => exact .inr (.inl ⟨h, e, rfl, by simp [instructionStep, State.fetchInRange, h, hd]⟩)
    | ok i => exact .inr (.inr ⟨h, i, rfl, by simp [instructionStep, State.fetchInRange, h, hd]⟩)
  · exact .inl ⟨by omega, by simp [instructionStep, State.fetchInRange, h]⟩

theorem Status.isRunning_iff {st : Status} : st.isRunning = true ↔ st = .running := by
  cases st <;> simp [Status.isRunning]

theorem clockBookkeeping_running {e : Nat} {t : State} (h : t.status = .running) : clockBookkeeping e t = sync e t := by
  simp [clockBookkeeping, h, Status.isRunning]

theorem clockBookkeeping_halted {e : Nat} {t : State} (h : t.status ≠ .running) : clockBookkeeping e t = t := by
  have : t.status.isRunning = false := by
    cases hs : t.status with
    | running => exact absurd hs h
    | halted _ _ _ _ => rfl
  simp [clockBookkeeping, this]

/-- All that one loop iteration, hence one step, can do when it answers a next state (R142). -/
theorem step_cases {s t : State} (h : step s = .next t) :
    (s.status ≠ .running ∧ t = s) ∨
    (s.status = .running ∧ (nextInput s).quit = true ∧ t = (poll s).halt .quit 0 0) ∨
    (s.status = .running ∧ (nextInput s).quit = false ∧
      ∃ u, instructionStep (poll s) = .next u ∧ t = clockBookkeeping (nextInput s).elapsedNs u) := by
  by_cases hr : s.status = .running
  · cases hq : (nextInput s).quit with
    | true =>
      simp [step, loopIteration, hr, Status.isRunning, hq] at h
      exact .inr (.inl ⟨hr, rfl, h.symm⟩)
    | false =>
      simp only [step, loopIteration, hr, Status.isRunning, hq] at h
      cases hi : instructionStep (poll s) with
      | next u =>
        simp [hi] at h
        exact .inr (.inr ⟨hr, rfl, u, rfl, h.symm⟩)
      | fault r => exact nomatch r
      | refused r => simp [hi] at h
  · have hf : s.status.isRunning = false := by
      cases hs : s.status with
      | running => exact absurd hs hr
      | halted _ _ _ _ => rfl
    simp [step, loopIteration, hf] at h
    exact .inl ⟨hr, h.symm⟩

end Sys2Proof.Machine
end

