-- ==== Sys2Proof/Laws/Exec.lean ====
section
/-! SUPPORT. What `exec` can do, said once for all instructions: either the halt of a cause that names the instruction,
or a completion, field by field. Proofs about every instruction cite this and unfold nothing. -/

namespace Sys2Proof.Machine

/-- Why an instruction halts (R123), with the info it records. -/
def HaltReason (i : Instr) (s : State) (c : HaltCause) (info : Nat) : Prop :=
  (c = .stackOverflow ∧ info = 16 ∧ s.sp.val = 16 ∧ ∃ nnn, i = .callNnn nnn) ∨
  (c = .stackUnderflow ∧ info = 0 ∧ s.sp.val = 0 ∧ i = .ret) ∨
  (c = .keyIndexRange ∧ ∃ x, info = (s.getV x).toNat ∧ 15 < info ∧ (i = .skpVx x ∨ i = .sknpVx x)) ∨
  (c = .memoryRange ∧ 4096 ≤ info ∧
    ((∃ x y n, i = .drwVxVyN x y n ∧ n ≠ 0 ∧ 4096 < s.i.toNat + n.toNat) ∨ (∃ x, i = .ldBVx x ∧ 4096 ≤ s.i.toNat + 2) ∨
      ∃ x, (i = .ldMemVx x ∨ i = .ldVxMem x) ∧ 4096 ≤ s.i.toNat + x.toNat))

/-- What an instruction that does not halt can do to each field. -/
def Completion (i : Instr) (s t : State) : Prop :=
  t.status = s.status ∧ t.keys = s.keys ∧ t.acc60 = s.acc60 ∧ t.rndPort = s.rndPort ∧ t.inputs = s.inputs ∧
  t.polls = s.polls ∧
  (t.fb = s.fb ∨ i = .cls ∨ ∃ x y n, i = .drwVxVyN x y n) ∧
  (t.i = s.i ∨ (∃ nnn, i = .ldINnn nnn) ∨ (∃ x, i = .addIVx x) ∨ ∃ x, i = .ldFVx x) ∧
  ((t.stack = s.stack ∧ t.sp = s.sp) ∨
    (∃ nnn, i = .callNnn nnn ∧ ∃ h : s.sp.val < 16, t.stack = s.stack.set s.sp.val s.pc h ∧ t.pc = addressOf nnn) ∨
    (i = .ret ∧ t.stack = s.stack ∧ ∃ j : Fin 16, t.pc = s.stack[j.val] + 2)) ∧
  (t.dt = s.dt ∨ ∃ x, i = .ldDtVx x) ∧
  (t.st = s.st ∨ ∃ x, i = .ldStVx x) ∧
  (t.mem = s.mem ∨ (((∃ x, i = .ldBVx x) ∨ ∃ x, i = .ldMemVx x) ∧ ∃ bs, t.mem = (s.writeBytes s.i.toNat bs).mem)) ∧
  (t.pc = s.pc ∨ t.pc = s.pc + 2 ∨ t.pc = s.pc + 4 ∨ (∃ nnn, t.pc = addressOf nnn) ∨
    (∃ nnn, t.pc = addressOf nnn + (s.getV 0).setWidth 16) ∨ (i = .ret ∧ ∃ j : Fin 16, t.pc = s.stack[j.val] + 2))

/-- Every instruction halts for a reason of its own, recording its word, or completes. -/
theorem exec_cases (i : Instr) (s t : State) (h : exec i s = .next t) :
    (∃ c info, t = s.halt c (encode i) info ∧ HaltReason i s c info) ∨ Completion i s t := by
  cases i
  case ret =>
    simp only [exec, execRet] at h
    rcases s.pop_cases with ⟨j, hj, e⟩ | ⟨h0, e⟩ <;> rw [e] at h <;> cases h
    · exact .inr ⟨rfl, rfl, rfl, rfl, rfl, rfl, .inl rfl, .inl rfl, .inr (.inr ⟨rfl, rfl, j, rfl⟩), .inl rfl, .inl rfl, .inl rfl, .inr (.inr (.inr (.inr (.inr ⟨rfl, j, rfl⟩))))⟩
    · exact .inl ⟨_, _, rfl, .inr (.inl ⟨rfl, rfl, h0, rfl⟩)⟩
  case callNnn nnn =>
    simp only [exec, execCallNnn] at h
    rcases s.push_cases s.pc with ⟨hj, e⟩ | ⟨h0, e⟩ <;> rw [e] at h <;> cases h
    · exact .inr ⟨rfl, rfl, rfl, rfl, rfl, rfl, .inl rfl, .inl rfl, .inr (.inl ⟨_, rfl, hj, rfl, rfl⟩), .inl rfl, .inl rfl, .inl rfl, .inr (.inr (.inr (.inl ⟨_, rfl⟩)))⟩
    · exact .inl ⟨_, _, rfl, .inl ⟨rfl, rfl, h0, _, rfl⟩⟩
  case skpVx x =>
    simp only [exec, execSkpVx] at h
    rcases skipOnKey_cases x true (encode (.skpVx x)) s with ⟨k, hk, e⟩ | ⟨hk, e⟩ <;> rw [e] at h <;> cases h
    · refine .inr ⟨rfl, rfl, rfl, rfl, rfl, rfl, .inl rfl, .inl rfl, .inl ⟨rfl, rfl⟩, .inl rfl, .inl rfl, .inl rfl, ?_⟩
      generalize (s.keys[k.val] == _) = c at *; cases c <;> simp [State.skipIf]
    · exact .inl ⟨_, _, rfl, .inr (.inr (.inl ⟨rfl, x, rfl, hk, .inl rfl⟩))⟩
  case sknpVx x =>
    simp only [exec, execSknpVx] at h
    rcases skipOnKey_cases x false (encode (.sknpVx x)) s with ⟨k, hk, e⟩ | ⟨hk, e⟩ <;> rw [e] at h <;> cases h
    · refine .inr ⟨rfl, rfl, rfl, rfl, rfl, rfl, .inl rfl, .inl rfl, .inl ⟨rfl, rfl⟩, .inl rfl, .inl rfl, .inl rfl, ?_⟩
      generalize (s.keys[k.val] == _) = c at *; cases c <;> simp [State.skipIf]
    · exact .inl ⟨_, _, rfl, .inr (.inr (.inl ⟨rfl, x, rfl, hk, .inr rfl⟩))⟩
  case drwVxVyN x y n =>
    simp only [exec, execDrwVxVyN] at h
    rcases guardRange_cases s.i.toNat n.toNat (encode (.drwVxVyN x y n)) s _ with ⟨_, e⟩ | ⟨h0, hk, e⟩ <;> rw [e] at h <;> cases h
    · exact .inr ⟨rfl, rfl, rfl, rfl, rfl, rfl, .inr (.inr ⟨_, _, _, rfl⟩), .inl rfl, .inl ⟨rfl, rfl⟩, .inl rfl, .inl rfl, .inl rfl, .inr (.inl rfl)⟩
    · exact .inl ⟨_, _, rfl, .inr (.inr (.inr ⟨rfl, le_max_right _ _, .inl ⟨_, _, _, rfl, fun hn => h0 (hn ▸ rfl), hk⟩⟩))⟩
  case ldBVx x =>
    simp only [exec, execLdBVx] at h
    rcases guardRange_cases s.i.toNat 3 (encode (.ldBVx x)) s _ with ⟨_, e⟩ | ⟨_, hk, e⟩ <;> rw [e] at h <;> cases h
    · rw [State.writeBytes_eq]
      exact .inr ⟨rfl, rfl, rfl, rfl, rfl, rfl, .inl rfl, .inl rfl, .inl ⟨rfl, rfl⟩, .inl rfl, .inl rfl, .inr ⟨.inl ⟨_, rfl⟩, _, rfl⟩, .inr (.inl rfl)⟩
    · exact .inl ⟨_, _, rfl, .inr (.inr (.inr ⟨rfl, le_max_right _ _, .inr (.inl ⟨_, rfl, by simp only [Config.memSize] at hk; omega⟩)⟩))⟩
  case ldMemVx x =>
    simp only [exec, execLdMemVx] at h
    rcases guardRange_cases s.i.toNat (x.toNat+1) (encode (.ldMemVx x)) s _ with ⟨_, e⟩ | ⟨_, hk, e⟩ <;> rw [e] at h <;> cases h
    · rw [State.writeBytes_eq]
      exact .inr ⟨rfl, rfl, rfl, rfl, rfl, rfl, .inl rfl, .inl rfl, .inl ⟨rfl, rfl⟩, .inl rfl, .inl rfl, .inr ⟨.inr ⟨_, rfl⟩, _, rfl⟩, .inr (.inl rfl)⟩
    · exact .inl ⟨_, _, rfl, .inr (.inr (.inr ⟨rfl, le_max_right _ _, .inr (.inr ⟨_, .inl rfl, by simp only [Config.memSize] at hk; omega⟩)⟩))⟩
  case ldVxMem x =>
    simp only [exec, execLdVxMem] at h
    rcases guardRange_cases s.i.toNat (x.toNat+1) (encode (.ldVxMem x)) s _ with ⟨_, e⟩ | ⟨_, hk, e⟩ <;> rw [e] at h <;> cases h
    · rw [State.loadRegs_eq]
      exact .inr ⟨rfl, rfl, rfl, rfl, rfl, rfl, .inl rfl, .inl rfl, .inl ⟨rfl, rfl⟩, .inl rfl, .inl rfl, .inl rfl, .inr (.inl rfl)⟩
    · exact .inl ⟨_, _, rfl, .inr (.inr (.inr ⟨rfl, le_max_right _ _, .inr (.inr ⟨_, .inr rfl, by simp only [Config.memSize] at hk; omega⟩)⟩))⟩
  case ldVxK x =>
    simp only [exec, execLdVxK] at h
    cases hk : s.lowestKey <;> rw [hk] at h <;> cases h
    · exact .inr ⟨rfl, rfl, rfl, rfl, rfl, rfl, .inl rfl, .inl rfl, .inl ⟨rfl, rfl⟩, .inl rfl, .inl rfl, .inl rfl, .inl rfl⟩
    · exact .inr ⟨rfl, rfl, rfl, rfl, rfl, rfl, .inl rfl, .inl rfl, .inl ⟨rfl, rfl⟩, .inl rfl, .inl rfl, .inl rfl, .inr (.inl rfl)⟩
  case jpV0Nnn nnn =>
    cases h
    exact .inr ⟨rfl, rfl, rfl, rfl, rfl, rfl, .inl rfl, .inl rfl, .inl ⟨rfl, rfl⟩, .inl rfl, .inl rfl, .inl rfl, .inr (.inr (.inr (.inr (.inl ⟨_, rfl⟩))))⟩
  all_goals
    cases h
    refine .inr ⟨rfl, rfl, rfl, rfl, rfl, rfl, ?_, ?_, .inl ⟨rfl, rfl⟩, ?_, ?_, .inl rfl, ?_⟩
    · first | exact .inl rfl | simp
    · first | exact .inl rfl | simp
    · first | exact .inl rfl | simp
    · first | exact .inl rfl | simp
    · first | exact .inr (.inl rfl) | exact .inr (.inr (.inr (.inl ⟨_, rfl⟩))) | (simp only [State.skipIf]; split <;> simp)

end Sys2Proof.Machine
end

