-- ==== Sys2Proof/Laws/PerInstr.lean ====
section
/-! SUPPORT. Statements made per instruction, about the instruction as syntax. Family `Covered`: the word of a
well-formed instruction is covered by a row of the opcode table (30_encoding.md R77). -/

namespace Sys2Proof.Laws.Covered

/-- The word of the instruction is covered by the opcode-table row it is made from. -/
def Statement (i : Instr) : Prop := i.wellFormed = true → ∃ r ∈ opcodeRows, r.covers (encode i) = true

/-- A word under the mask of its family alone. -/
theorem mask_family (w : Word) : (w &&& 0xF000).toNat = w.toNat / 4096 * 4096 := by
  have h : w &&& 0xF000 = formatXYN (fieldOp w) 0 0 0 := by
    refine BitVec.eq_of_getLsbD_eq fun i hi => ?_
    simp only [formatXYN, fieldOp, BitVec.getLsbD_and, BitVec.getLsbD_append, BitVec.getLsbD_extractLsb']
    interval_cases i <;> simp
  rw [h, formatXYN_toNat, fieldOp_toNat]
  simp

/-- A word under the mask of its family and low nibble. -/
theorem mask_nibble (w : Word) : (w &&& 0xF00F).toNat = w.toNat / 4096 * 4096 + w.toNat % 16 := by
  have h : w &&& 0xF00F = formatXYN (fieldOp w) 0 0 (fieldN w) := by
    refine BitVec.eq_of_getLsbD_eq fun i hi => ?_
    simp only [formatXYN, fieldOp, fieldN, BitVec.getLsbD_and, BitVec.getLsbD_append, BitVec.getLsbD_extractLsb']
    interval_cases i <;> simp
  rw [h, formatXYN_toNat, fieldOp_toNat, fieldN_toNat]
  simp

/-- A word under the mask of its family and low byte. -/
theorem mask_byte (w : Word) : (w &&& 0xF0FF).toNat = w.toNat / 4096 * 4096 + w.toNat % 256 := by
  have h : w &&& 0xF0FF = formatXNN (fieldOp w) 0 (fieldNn w) := by
    refine BitVec.eq_of_getLsbD_eq fun i hi => ?_
    simp only [formatXNN, fieldOp, fieldNn, BitVec.getLsbD_and, BitVec.getLsbD_append, BitVec.getLsbD_extractLsb']
    interval_cases i <;> simp
  rw [h, formatXNN_toNat, fieldOp_toNat, fieldNn_toNat]
  simp

theorem covered_by_family {w p : Word} (hr : ⟨p, 0xF000⟩ ∈ opcodeRows) (h : w.toNat / 4096 * 4096 = p.toNat) :
    ∃ r ∈ opcodeRows, r.covers w = true :=
  ⟨_, hr, by simpa [OpcodeRow.covers] using BitVec.eq_of_toNat_eq ((mask_family w).trans h)⟩

theorem covered_by_nibble {w p : Word} (hr : ⟨p, 0xF00F⟩ ∈ opcodeRows) (h : w.toNat / 4096 * 4096 + w.toNat % 16 = p.toNat) :
    ∃ r ∈ opcodeRows, r.covers w = true :=
  ⟨_, hr, by simpa [OpcodeRow.covers] using BitVec.eq_of_toNat_eq ((mask_nibble w).trans h)⟩

theorem covered_by_byte {w p : Word} (hr : ⟨p, 0xF0FF⟩ ∈ opcodeRows) (h : w.toNat / 4096 * 4096 + w.toNat % 256 = p.toNat) :
    ∃ r ∈ opcodeRows, r.covers w = true :=
  ⟨_, hr, by simpa [OpcodeRow.covers] using BitVec.eq_of_toNat_eq ((mask_byte w).trans h)⟩

/-! ### The three shapes of word, each with its row -/

theorem formatA_covered (op : Nibble) (nnn : Addr12) (hr : ⟨formatA op 0, 0xF000⟩ ∈ opcodeRows) :
    ∃ r ∈ opcodeRows, r.covers (formatA op nnn) = true :=
  covered_by_family hr (by rw [formatA_toNat, formatA_toNat, show (0 : Addr12).toNat = 0 from rfl]; omega)

theorem formatXNN_covered (op : Nibble) (x : RegIx) (nn : Byte) (hr : ⟨formatXNN op 0 0, 0xF000⟩ ∈ opcodeRows) :
    ∃ r ∈ opcodeRows, r.covers (formatXNN op x nn) = true :=
  covered_by_family hr (by
    rw [formatXNN_toNat, formatXNN_toNat, show (0 : RegIx).toNat = 0 from rfl, show (0 : Byte).toNat = 0 from rfl]; omega)

theorem formatXYN_covered (op : Nibble) (x y : RegIx) (n : Nibble) (hr : ⟨formatXYN op 0 0 0, 0xF000⟩ ∈ opcodeRows) :
    ∃ r ∈ opcodeRows, r.covers (formatXYN op x y n) = true :=
  covered_by_family hr (by rw [formatXYN_toNat, formatXYN_toNat, show (0 : RegIx).toNat = 0 from rfl]; omega)

theorem formatXY_covered (op : Nibble) (x y : RegIx) (n : Nibble) (hr : ⟨formatXYN op 0 0 n, 0xF00F⟩ ∈ opcodeRows) :
    ∃ r ∈ opcodeRows, r.covers (formatXYN op x y n) = true :=
  covered_by_nibble hr (by rw [formatXYN_toNat, formatXYN_toNat, show (0 : RegIx).toNat = 0 from rfl]; omega)

theorem formatX_covered (op : Nibble) (x : RegIx) (nn : Byte) (hr : ⟨formatXNN op 0 nn, 0xF0FF⟩ ∈ opcodeRows) :
    ∃ r ∈ opcodeRows, r.covers (formatXNN op x nn) = true :=
  covered_by_byte hr (by rw [formatXNN_toNat, formatXNN_toNat, show (0 : RegIx).toNat = 0 from rfl]; omega)

/-! ### One lemma per constructor -/

theorem cls : Statement .cls := fun _ => ⟨⟨0x00E0, 0xFFFF⟩, by decide, by decide⟩

theorem ret : Statement .ret := fun _ => ⟨⟨0x00EE, 0xFFFF⟩, by decide, by decide⟩

theorem jpNnn (nnn : Addr12) : Statement (.jpNnn nnn) := fun _ => formatA_covered _ _ (by decide)

theorem callNnn (nnn : Addr12) : Statement (.callNnn nnn) := fun _ => formatA_covered _ _ (by decide)

theorem seVxNn (x : RegIx) (nn : Byte) : Statement (.seVxNn x nn) := fun _ => formatXNN_covered _ _ _ (by decide)

theorem sneVxNn (x : RegIx) (nn : Byte) : Statement (.sneVxNn x nn) := fun _ => formatXNN_covered _ _ _ (by decide)

theorem seVxVy (x : RegIx) (y : RegIx) (n : Nibble) : Statement (.seVxVy x y n) := fun _ => formatXYN_covered _ _ _ _ (by decide)

theorem ldVxNn (x : RegIx) (nn : Byte) : Statement (.ldVxNn x nn) := fun _ => formatXNN_covered _ _ _ (by decide)

theorem addVxNn (x : RegIx) (nn : Byte) : Statement (.addVxNn x nn) := fun _ => formatXNN_covered _ _ _ (by decide)

theorem ldVxVy (x : RegIx) (y : RegIx) : Statement (.ldVxVy x y) := fun _ => formatXY_covered _ _ _ _ (by decide)

theorem orVxVy (x : RegIx) (y : RegIx) : Statement (.orVxVy x y) := fun _ => formatXY_covered _ _ _ _ (by decide)

theorem andVxVy (x : RegIx) (y : RegIx) : Statement (.andVxVy x y) := fun _ => formatXY_covered _ _ _ _ (by decide)

theorem xorVxVy (x : RegIx) (y : RegIx) : Statement (.xorVxVy x y) := fun _ => formatXY_covered _ _ _ _ (by decide)

theorem addVxVy (x : RegIx) (y : RegIx) : Statement (.addVxVy x y) := fun _ => formatXY_covered _ _ _ _ (by decide)

theorem subVxVy (x : RegIx) (y : RegIx) : Statement (.subVxVy x y) := fun _ => formatXY_covered _ _ _ _ (by decide)

theorem shrVx (x : RegIx) (y : RegIx) : Statement (.shrVx x y) := fun _ => formatXY_covered _ _ _ _ (by decide)

theorem subnVxVy (x : RegIx) (y : RegIx) : Statement (.subnVxVy x y) := fun _ => formatXY_covered _ _ _ _ (by decide)

theorem shlVx (x : RegIx) (y : RegIx) : Statement (.shlVx x y) := fun _ => formatXY_covered _ _ _ _ (by decide)

theorem sneVxVy (x : RegIx) (y : RegIx) (n : Nibble) : Statement (.sneVxVy x y n) := by
  intro h
  have hn : n = 0 := by simpa [Instr.wellFormed, nibble9Allowed, Config.strict9xy0] using h
  subst hn
  exact formatXY_covered _ _ _ _ (by decide)

theorem ldINnn (nnn : Addr12) : Statement (.ldINnn nnn) := fun _ => formatA_covered _ _ (by decide)

theorem jpV0Nnn (nnn : Addr12) : Statement (.jpV0Nnn nnn) := fun _ => formatA_covered _ _ (by decide)

theorem rndVxNn (x : RegIx) (nn : Byte) : Statement (.rndVxNn x nn) := fun _ => formatXNN_covered _ _ _ (by decide)

theorem drwVxVyN (x : RegIx) (y : RegIx) (n : Nibble) : Statement (.drwVxVyN x y n) := fun _ => formatXYN_covered _ _ _ _ (by decide)

theorem skpVx (x : RegIx) : Statement (.skpVx x) := fun _ => formatX_covered _ _ _ (by decide)

theorem sknpVx (x : RegIx) : Statement (.sknpVx x) := fun _ => formatX_covered _ _ _ (by decide)

theorem ldVxDt (x : RegIx) : Statement (.ldVxDt x) := fun _ => formatX_covered _ _ _ (by decide)

theorem ldVxK (x : RegIx) : Statement (.ldVxK x) := fun _ => formatX_covered _ _ _ (by decide)

theorem ldDtVx (x : RegIx) : Statement (.ldDtVx x) := fun _ => formatX_covered _ _ _ (by decide)

theorem ldStVx (x : RegIx) : Statement (.ldStVx x) := fun _ => formatX_covered _ _ _ (by decide)

theorem addIVx (x : RegIx) : Statement (.addIVx x) := fun _ => formatX_covered _ _ _ (by decide)

theorem ldFVx (x : RegIx) : Statement (.ldFVx x) := fun _ => formatX_covered _ _ _ (by decide)

theorem ldBVx (x : RegIx) : Statement (.ldBVx x) := fun _ => formatX_covered _ _ _ (by decide)

theorem ldMemVx (x : RegIx) : Statement (.ldMemVx x) := fun _ => formatX_covered _ _ _ (by decide)

theorem ldVxMem (x : RegIx) : Statement (.ldVxMem x) := fun _ => formatX_covered _ _ _ (by decide)

end Sys2Proof.Laws.Covered
end

