-- ==== Sys2Proof/Tests/Slice0.lean ====
section
/-! SUPPORT. The author's tests. Expected values come from spec/95_test_vectors.md (V1–V99, H1–H13, T1–T6, 1.1–1.7) or
from the words of R77 written out by hand; then one witness for each hypothesis, and each clause, of a statement. -/

namespace Sys2Proof.Tests

open Sys2Proof.Machine

/-! ### Helpers -/

/-- A loop iteration in which the host does nothing and no time passes. -/
def quiet : HostInput := { events := [], quit := false, rnd := 0xA5, elapsedNs := 0 }

/-- The default start state of the vectors, with one quiet iteration to come. -/
def start : State := { State.reset with inputs := [quiet] }

/-- The start state at another PC. -/
def startAt (pc : Word) : State := { start with pc := pc }

/-- The key k is down. -/
def keyDown (s : State) (k : RegIx) : State := { s with keys := s.keys.set k.toNat true k.isLt }

/-- The pixel (x, y) is on. -/
def lit (s : State) (x : Fin 64) (y : Fin 32) : State := { s with fb := flipPixel s.fb x y }

/-- What one step of the placed word leaves, seen through f. -/
def after {α : Type} (s : State) (w : Nat) (f : State → α) : Option α :=
  match step (s.withFetchWord 16 w) with
  | .next t => some (f t)
  | .fault _ => none
  | .refused _ => none

/-- The pixels that are on, by column and row. -/
def pixels (s : State) : List (Nat × Nat) :=
  (List.finRange 64).flatMap fun x => (List.finRange 32).filterMap fun y => if pixel s.fb x y then some (x.val, y.val) else none

/-! ### WellFormed -/

/-- R72: the low nibble of family 9 is 0. -/
theorem test_wellFormed_refuses_nibble9 : Instr.wellFormed (.sneVxVy 1 2 3) = false := by decide

theorem test_wellFormed_accepts_nibble9_zero : Instr.wellFormed (.sneVxVy 1 2 0) = true := by decide

/-- R70: family 5 ignores its low nibble. -/
theorem test_wellFormed_accepts_family5 : Instr.wellFormed (.seVxVy 1 2 3) = true := by decide

/-! ### Decode: one word of every row of the table, its bits written from R77 -/

theorem test_decode_flow :
    decodeTableWord 16 0x00E0 = some (.cls) ∧
    decodeTableWord 16 0x00EE = some (.ret) ∧
    decodeTableWord 16 0x1204 = some (.jpNnn 0x204) ∧
    decodeTableWord 16 0x2ABC = some (.callNnn 0xABC) ∧
    decodeTableWord 16 0x3FFE = some (.seVxNn 0xF 0xFE) ∧
    decodeTableWord 16 0x4311 = some (.sneVxNn 3 0x11) ∧
    decodeTableWord 16 0x512F = some (.seVxVy 1 2 0xF) := by decide

theorem test_decode_alu :
    decodeTableWord 16 0x6A7B = some (.ldVxNn 0xA 0x7B) ∧
    decodeTableWord 16 0x70FF = some (.addVxNn 0 0xFF) ∧
    decodeTableWord 16 0x8120 = some (.ldVxVy 1 2) ∧
    decodeTableWord 16 0x8121 = some (.orVxVy 1 2) ∧
    decodeTableWord 16 0x8122 = some (.andVxVy 1 2) ∧
    decodeTableWord 16 0x8123 = some (.xorVxVy 1 2) ∧
    decodeTableWord 16 0x8F14 = some (.addVxVy 0xF 1) ∧
    decodeTableWord 16 0x8015 = some (.subVxVy 0 1) ∧
    decodeTableWord 16 0x8216 = some (.shrVx 2 1) ∧
    decodeTableWord 16 0x8327 = some (.subnVxVy 3 2) ∧
    decodeTableWord 16 0x830E = some (.shlVx 3 0) ∧
    decodeTableWord 16 0x9120 = some (.sneVxVy 1 2 0) := by decide

theorem test_decode_index_draw_keys :
    decodeTableWord 16 0xA300 = some (.ldINnn 0x300) ∧
    decodeTableWord 16 0xBFFF = some (.jpV0Nnn 0xFFF) ∧
    decodeTableWord 16 0xC30F = some (.rndVxNn 3 0x0F) ∧
    decodeTableWord 16 0xD232 = some (.drwVxVyN 2 3 2) ∧
    decodeTableWord 16 0xE59E = some (.skpVx 5) ∧
    decodeTableWord 16 0xE5A1 = some (.sknpVx 5) := by decide

theorem test_decode_family_F :
    decodeTableWord 16 0xF307 = some (.ldVxDt 3) ∧
    decodeTableWord 16 0xF20A = some (.ldVxK 2) ∧
    decodeTableWord 16 0xF015 = some (.ldDtVx 0) ∧
    decodeTableWord 16 0xF118 = some (.ldStVx 1) ∧
    decodeTableWord 16 0xFA1E = some (.addIVx 0xA) ∧
    decodeTableWord 16 0xF029 = some (.ldFVx 0) ∧
    decodeTableWord 16 0xFA33 = some (.ldBVx 0xA) ∧
    decodeTableWord 16 0xF155 = some (.ldMemVx 1) ∧
    decodeTableWord 16 0xF265 = some (.ldVxMem 2) := by decide

/-- V22, V53, V54, V73, V96–V99, H13. -/
theorem test_decode_invalid : [0x9121, 0x8018, 0x801F, 0xE500, 0xF000, 0xF0FF, 0x0123, 0x01E0, 0x0000, 0x8008, 0x900F, 0xE09F, 0xF001].map
    (decodeTableWord 16) = List.replicate 13 none := by decide

/-- R47: the first byte is bits 15:8 of the word. -/
theorem test_encode_words : encode (.ldVxNn 0xA 0x7B) = 0x6A7B ∧ encode (.drwVxVyN 2 3 2) = 0xD232 ∧ encode .ret = 0x00EE := by decide

/-! ### One step of one instruction -/

/-- V1. -/
theorem test_cls_V1 : after (lit (lit start 5 5) 63 31) 0x00E0 (fun t => (pixels t, t.pc)) = some ([], 0x202) := by decide

/-- V2. -/
theorem test_ret_V2 : after { startAt 0x210 with sp := 1, stack := start.stack.set 0 0x204 } 0x00EE (fun t => (t.sp.val, t.pc)) = some (0, 0x206) := by decide

/-- V3: underflow. -/
theorem test_ret_V3 : after (startAt 0x210) 0x00EE (fun t => (t.status, t.pc)) = some ((.halted .stackUnderflow 0x210 0x00EE 0), 0x210) := by decide

/-- V5. -/
theorem test_jp_V5 : after (startAt 0x20A) 0x1204 (fun t => t.pc) = some 0x204 := by decide

/-- V7: the target 0xFFF, halted only by the next fetch. -/
theorem test_jp_V7 : after start 0x1FFF (fun t => (t.pc, t.status)) = some (0xFFF, .running) := by decide

/-- V9: the 16th call. -/
theorem test_call_V9 : after { startAt 0x204 with sp := 15 } 0x2210 (fun t => (t.sp.val, t.stack[15], t.pc)) = some (16, 0x204, 0x210) := by decide

/-- V10: the 17th call. -/
theorem test_call_V10 : after { startAt 0x204 with sp := 16 } 0x2210 (fun t => (t.status, t.sp.val, t.pc)) = some ((.halted .stackOverflow 0x204 0x2210 16), 16, 0x204) := by decide

/-- V11. -/
theorem test_seImm_V11 : after (startAt 0x208) 0x3000 (fun t => t.pc) = some 0x20C := by decide

/-- V12. -/
theorem test_seImm_V12 : after ((startAt 0x208).setV 0 4) 0x3000 (fun t => t.pc) = some 0x20A := by decide

/-- V14. -/
theorem test_sneImm_V14 : after ((startAt 0x300).setV 3 0x10) 0x4311 (fun t => t.pc) = some 0x304 := by decide

/-- V15. -/
theorem test_sneImm_V15 : after ((startAt 0x300).setV 3 0x11) 0x4311 (fun t => t.pc) = some 0x302 := by decide

/-- V19: the low nibble is ignored. -/
theorem test_seReg_V19 : after ((start.setV 1 7).setV 2 7) 0x512F (fun t => t.pc) = some 0x204 := by decide

/-- V17. -/
theorem test_seReg_V17 : after ((start.setV 1 0x42).setV 2 0x43) 0x5120 (fun t => t.pc) = some 0x202 := by decide

/-- V20. -/
theorem test_sneReg_V20 : after ((start.setV 1 1).setV 2 2) 0x9120 (fun t => t.pc) = some 0x204 := by decide

/-- V21. -/
theorem test_sneReg_V21 : after ((start.setV 1 2).setV 2 2) 0x9120 (fun t => t.pc) = some 0x202 := by decide

/-- V23. -/
theorem test_ldImm_V23 : after start 0x6A7B (fun t => (t.getV 0xA, t.pc)) = some (0x7B, 0x202) := by decide

/-- V25: wraps, VF kept. -/
theorem test_addImm_V25 : after ((start.setV 0 0xFF).setV 0xF 0x77) 0x7001 (fun t => (t.getV 0, t.getV 0xF)) = some (0x00, 0x77) := by decide

/-- V26: VF as an ordinary destination. -/
theorem test_addImm_V26 : after (start.setV 0xF 0xFF) 0x7F01 (fun t => t.getV 0xF) = some 0x00 := by decide

/-- V27. -/
theorem test_ldReg_V27 : after (start.setV 1 0x33) 0x8010 (fun t => (t.getV 0, t.getV 1)) = some (0x33, 0x33) := by decide

/-- V28. -/
theorem test_or_V28 : after (((start.setV 0 0xF0).setV 1 0x0F).setV 0xF 0x55) 0x8011 (fun t => (t.getV 0, t.getV 0xF)) = some (0xFF, 0x55) := by decide

/-- V29. -/
theorem test_and_V29 : after (((start.setV 0 0xF0).setV 1 0x3C).setV 0xF 0x55) 0x8012 (fun t => (t.getV 0, t.getV 0xF)) = some (0x30, 0x55) := by decide

/-- V30. -/
theorem test_xor_V30 : after ((start.setV 0 0xFF).setV 1 0x0F) 0x8013 (fun t => (t.getV 0, t.getV 0xF)) = some (0xF0, 0x00) := by decide

/-- V31: X = Y. -/
theorem test_xor_V31 : after (start.setV 3 0x5A) 0x8333 (fun t => t.getV 3) = some 0x00 := by decide

/-- V34. -/
theorem test_add_V34 : after ((start.setV 0 0xFF).setV 1 0xFF) 0x8014 (fun t => (t.getV 0, t.getV 0xF)) = some (0xFE, 0x01) := by decide

/-- V36: X = Y = F, the flag wins. -/
theorem test_add_V36 : after (start.setV 0xF 0x80) 0x8FF4 (fun t => t.getV 0xF) = some 0x01 := by decide

/-- V41. -/
theorem test_sub_V41 : after ((start.setV 1 0xFF).setV 0xF 1) 0x8015 (fun t => (t.getV 0, t.getV 0xF)) = some (0x01, 0x00) := by decide

/-- V40: equal operands give 1. -/
theorem test_sub_V40 : after ((start.setV 0 7).setV 1 7) 0x8015 (fun t => (t.getV 0, t.getV 0xF)) = some (0x00, 0x01) := by decide

/-- V45: VY ignored. -/
theorem test_shr_V45 : after ((start.setV 2 0xFF).setV 1 0x02) 0x8216 (fun t => (t.getV 2, t.getV 1, t.getV 0xF)) = some (0x7F, 0x02, 0x01) := by decide

/-- V46: X = F. -/
theorem test_shr_V46 : after (start.setV 0xF 0x03) 0x8F06 (fun t => t.getV 0xF) = some 0x01 := by decide

/-- V47. -/
theorem test_subn_V47 : after ((start.setV 0 5).setV 1 7) 0x8017 (fun t => (t.getV 0, t.getV 0xF)) = some (0x02, 0x01) := by decide

/-- V48. -/
theorem test_subn_V48 : after ((start.setV 0 7).setV 1 5) 0x8017 (fun t => (t.getV 0, t.getV 0xF)) = some (0xFE, 0x00) := by decide

/-- V50. -/
theorem test_shl_V50 : after (start.setV 3 0x81) 0x830E (fun t => (t.getV 3, t.getV 0xF)) = some (0x02, 0x01) := by decide

/-- V51. -/
theorem test_shl_V51 : after ((start.setV 3 0x40).setV 0xF 1) 0x830E (fun t => (t.getV 3, t.getV 0xF)) = some (0x80, 0x00) := by decide

/-- V55. -/
theorem test_ldI_V55 : after { start with i := 0xFFFF } 0xA300 (fun t => (t.i, t.pc)) = some (0x300, 0x202) := by decide

/-- V57: not reduced. -/
theorem test_jpV0_V57 : after (start.setV 0 0xFF) 0xBFFF (fun t => t.pc) = some 0x10FE := by decide

/-- V58: rnd = 0xA5. -/
theorem test_rnd_V58 : after start 0xC30F (fun t => t.getV 3) = some 0x05 := by decide

/-- V59: mask 0. -/
theorem test_rnd_V59 : after (start.setV 3 9) 0xC300 (fun t => t.getV 3) = some 0x00 := by decide

/-- V61: both axes wrap. -/
theorem test_drw_V61 : after (((({ start with i := 0x300 } : State).writeBytes 0x300 [0xFF, 0x81]).setV 2 60).setV 3 31) 0xD232 (fun t => (pixels t, t.getV 0xF)) = some ([(0, 31), (1, 31), (2, 31), (3, 0), (3, 31), (60, 0), (60, 31), (61, 31), (62, 31), (63, 31)], 0x00) := by decide

/-- V62: collision. -/
theorem test_drw_V62 : after (lit (({ start with i := 0x300 } : State).writeMem 0x300 0x80) 0 0) 0xD011 (fun t => (pixels t, t.getV 0xF)) = some ([], 0x01) := by decide

/-- V68. -/
theorem test_skp_V68 : after ((keyDown start 0xA).setV 5 0x0A) 0xE59E (fun t => t.pc) = some 0x204 := by decide

/-- V70. -/
theorem test_skp_V70 : after (start.setV 5 0x10) 0xE59E (fun t => (t.status, t.pc)) = some ((.halted .keyIndexRange 0x200 0xE59E 0x10), 0x200) := by decide

/-- V71. -/
theorem test_sknp_V71 : after (start.setV 5 0x0A) 0xE5A1 (fun t => t.pc) = some 0x204 := by decide

/-- V72. -/
theorem test_sknp_V72 : after ((keyDown start 0xA).setV 5 0x0A) 0xE5A1 (fun t => t.pc) = some 0x202 := by decide

/-- V74. -/
theorem test_ldVxDt_V74 : after { start with dt := 0x3C } 0xF307 (fun t => (t.getV 3, t.dt)) = some (0x3C, 0x3C) := by decide

/-- V75: the lowest key. -/
theorem test_ldVxK_V75 : after (keyDown (keyDown (startAt 0x300) 7) 3) 0xF20A (fun t => (t.getV 2, t.pc)) = some (0x03, 0x302) := by decide

/-- V76: the wait. -/
theorem test_ldVxK_V76 : after ((startAt 0x300).setV 2 0x99) 0xF20A (fun t => (t.getV 2, t.pc, t.status)) = some (0x99, 0x300, .running) := by decide

/-- V78. -/
theorem test_ldDt_V78 : after (start.setV 0 0x3C) 0xF015 (fun t => (t.dt, t.st)) = some (0x3C, 0) := by decide

/-- V79. -/
theorem test_ldSt_V79 : after (start.setV 1 0x10) 0xF118 (fun t => (t.dt, t.st)) = some (0, 0x10) := by decide

/-- V80: no flag. -/
theorem test_addI_V80 : after ((({ start with i := 0x300 } : State).setV 0xA 0x10).setV 0xF 0x22) 0xFA1E (fun t => (t.i, t.getV 0xF)) = some (0x310, 0x22) := by decide

/-- V81: modulo 2^16. -/
theorem test_addI_V81 : after (({ start with i := 0xFFFF } : State).setV 0 1) 0xF01E (fun t => t.i) = some 0x0000 := by decide

/-- V84. -/
theorem test_ldF_V84 : after (start.setV 0 0x0F) 0xF029 (fun t => t.i) = some 0x004B := by decide

/-- V86: the full VX. -/
theorem test_ldF_V86 : after (start.setV 0 0xFF) 0xF029 (fun t => t.i) = some 0x04FB := by decide

/-- V87. -/
theorem test_ldB_V87 : after (({ start with i := 0x300 } : State).setV 0xA 0x7B) 0xFA33 (fun t => ([0x300, 0x301, 0x302, 0x303].map t.readMem, t.i)) = some ([1, 2, 3, 0], 0x300) := by decide

/-- H10: the last digit past the top, nothing written. -/
theorem test_ldB_H10 : after (({ start with i := 0xFFE } : State).setV 2 0xFF) 0xF233 (fun t => (t.status, t.readMem 0xFFE, t.readMem 0xFFF)) = some ((.halted .memoryRange 0x200 0xF233 0x1000), 0, 0) := by decide

/-- V91. -/
theorem test_ldMem_V91 : after (((({ start with i := 0x300 } : State).setV 0 0xFF).setV 1 0x81).setV 2 0x22) 0xF155 (fun t => ([0x300, 0x301, 0x302].map t.readMem, t.i)) = some ([0xFF, 0x81, 0x00], 0x300) := by decide

/-- H7: I far out. -/
theorem test_ldMem_H7 : after { start with i := 0x1234 } 0xF055 (fun t => t.status) = some (.halted .memoryRange 0x200 0xF055 0x1234) := by decide

/-- V94. -/
theorem test_ldVxMem_V94 : after ((({ start with i := 0x300 } : State).writeBytes 0x300 [1, 2, 3]).setV 3 0x44) 0xF265 (fun t => ([0, 1, 2, 3].map t.getV, t.i)) = some ([1, 2, 3, 0x44], 0x300) := by decide

/-- H6: one byte past the top. -/
theorem test_ldVxMem_H6 : after (({ start with i := 0xFF1 } : State).setV 0 9) 0xFF65 (fun t => (t.status, t.getV 0)) = some ((.halted .memoryRange 0x200 0xFF65 0x1000), 9) := by decide

/-! ### The loop, the clock, the loader -/

/-- What one step leaves, seen through f. -/
def afterStep {α : Type} (s : State) (f : State → α) : Option α :=
  match step s with
  | .next t => some (f t)
  | .fault _ => none
  | .refused _ => none

/-- H1: the fetch straddles the top. -/
theorem test_fetch_H1 : afterStep (startAt 0xFFF) (fun t => t.status) = some (.halted .memoryRange 0xFFF 0 0x1000) := by decide

/-- H3. -/
theorem test_fetch_H3 : afterStep (startAt 0x1001) (fun t => t.status) = some (.halted .memoryRange 0x1001 0 0x1001) := by decide

/-- H4: the last legal fetch. -/
theorem test_fetch_H4 : afterStep ((startAt 0xFFE).writeBytes 0xFFE [0x00, 0xE0]) (fun t => (t.pc, t.status)) = some (0x1000, .running) := by decide

/-- V96, and the bare machine of 1.4: the poll comes first, then 0xF000 halts. -/
theorem test_invalid_V96 : afterStep (start.writeBytes 0x200 [0xF0, 0x00]) (fun t => (t.status, t.pc)) = some ((.halted .invalidOpcode 0x200 0xF000 0), 0x200) := by decide

/-- H11: quit before an invalid word. -/
theorem test_quit_H11 : afterStep (({ start with inputs := [{ quiet with quit := true }] } : State).writeBytes 0x200 [0xF0, 0x00]) (fun t => t.status) = some (.halted .quit 0x200 0 0) := by decide

/-- H12. -/
theorem test_nothing_after_halt_H12 : afterStep { start with dt := 5, status := .halted .quit 0x200 0 0, inputs := [{ quiet with elapsedNs := 50000000 }] } (fun t => (t.dt, t.inputs.length)) = some (5, 1) := by decide

/-- 1.4: with no image the first fetch reads 0x0000. Log 10. -/
theorem test_bare_reset_halts : afterStep State.reset (fun t => t.status) = some (.halted .invalidOpcode 0x200 0 0) := by decide

/-- R142: a key pressed at the poll is seen by the same step; events act in order. -/
theorem test_poll_before_step : afterStep (({ start with inputs := [{ quiet with events := [.down 3, .down 2, .up 2] }] } : State).writeBytes 0x200 [0xF0, 0x0A]) (fun t => (t.getV 0, t.pc)) = some (3, 0x202) := by decide

/-- R142: the clock bookkeeping follows the step (T3): FX07 reads DT before the tick. -/
theorem test_tick_after_step : afterStep (({ start with dt := 3, inputs := [{ quiet with elapsedNs := 16666667 }] } : State).writeBytes 0x200 [0xF1, 0x07]) (fun t => (t.getV 1, t.dt, t.acc60)) = some (3, 2, 20) := by decide

/-- T1, T2. -/
theorem test_tick : (tick { start with dt := 1, st := 2 }).dt = 0 ∧ (tick { start with dt := 1, st := 2 }).st = 1 ∧ (tick start).dt = 0 := by
  decide

/-- 1.5: exactly two periods and a bit; 1 ns is 60 units of 1/60 ns, and 50000001 ns is three periods and 1 ns. -/
theorem test_sync : (sync 50000001 { start with dt := 5, st := 1 }).dt = 2 ∧ (sync 50000001 { start with dt := 5, st := 1 }).st = 0 ∧
    (sync 50000001 start).acc60 = 60 := by decide

/-- 1.5: the comparison is strict; 50000000 ns are exactly three periods. -/
theorem test_sync_strict : (sync 50000000 { start with dt := 5 }).dt = 3 ∧ (sync 50000000 start).acc60 = 1000000000 := by decide

/-- T5. -/
theorem test_cycleUs : [500, 60, 700, 3].map Config.cycleUs = [2000, 16666, 1428, 333333] := by decide

/-- R58, R63: an image of two bytes stands at 0x200, and the font stays. -/
theorem test_load : (match load [0x12, 0x00] State.reset with
    | .ok t => some ([0x1FF, 0x200, 0x201, 0x202, 0, 0x4F].map t.readMem)
    | .error _ => none) = some [0, 0x12, 0, 0, 0xF0, 0x80] := by decide

/-- 1.4: 3585 bytes are rejected. -/
theorem test_load_too_large : (match load (List.replicate 3585 0x11) State.reset with
    | .ok _ => none
    | .error e => some e) = some BootFailure.programTooLarge := by
  rw [load, if_neg (by rw [List.length_replicate]; decide)]

/-- R145: a missing file, a failing display. -/
theorem test_boot_failures : (match boot none true [] with | .ok _ => none | .error e => some e) = some BootFailure.programUnreadable ∧
    (match boot (some [0x12, 0x00]) false [] with | .ok _ => none | .error e => some e) = some BootFailure.displayFailed := by decide

/-- Memory stays canonical: writing the reset contents back removes the cell. -/
theorem test_memory_canonical : ((start.writeMem 0x300 7).writeMem 0x300 0).mem = [] ∧ (start.writeMem 0 0xF0).mem = [] := by decide

/-- R123's codes and R124's diagnostic. -/
theorem test_status : [Status.running, .halted .invalidOpcode 0x202 0xF000 0, .halted .quit 0 0 0].map Status.code = [0, 1, 6] ∧
    (Status.halted .invalidOpcode 0x202 0xF000 0).diagnostic = some (.invalidOpcodeAt 0x202 0xF000) := by decide

/-! ### Witnesses: for each statement with hypotheses, and each clause of it at a boundary value, data that meets them -/

theorem witness_DecodeOfEncode : Instr.wellFormed (.sneVxVy 0xF 0xF 0) = true := by decide

theorem witness_EncodeOfDecode : decodeWord 0x9FF0 = .ok (.sneVxVy 0xF 0xF 0) := by decide

theorem witness_FamiliesWithSubOpcodesDecode : (0xFFF < 0x1000 ∧ 0xFFF ≠ 0xE0 ∧ 0xFFF ≠ 0xEE) ∧
    (0xF : Nibble) ∈ [(0x8 : Nibble), 0x9, 0xA, 0xB, 0xC, 0xD, 0xF] ∧ ((0xFF : Byte) ≠ 0x9E ∧ (0xFF : Byte) ≠ 0xA1) ∧
    (0x00 : Byte) ∉ [(0x07 : Byte), 0x0A, 0x15, 0x18, 0x1E, 0x29, 0x33, 0x55, 0x65] := by decide

theorem witness_nonzero_nibble : (0x1 : Nibble) ≠ 0 ∧ (0xF : Nibble) ≠ 0 := by decide

/-- An image of two bytes loads; 0x50 and 0xFFF are in the range of the zeros, 0x4F in that of the font. -/
theorem witness_FontAndScreenAtReset : (∃ t, load [0x12, 0x00] State.reset = .ok t) ∧ (0x50 ≤ 0x50 ∧ 0x50 < 4096) ∧
    (0x200 + 2 ≤ 0xFFF ∧ 0xFFF < 4096) ∧ 0x4F < 0x50 := ⟨⟨_, rfl⟩, by decide⟩

theorem witness_LoadPlacesImage : ([] : List Byte).length ≤ 3584 ∧ (List.replicate 3584 (0x11 : Byte)).length ≤ 3584 ∧
    3584 < (List.replicate 3585 (0x11 : Byte)).length := by
  simp only [List.length_replicate, List.length_nil]
  decide

theorem witness_StepRunsDecodedInstruction : ∃ s i, s.status = .running ∧ (nextInput s).quit = false ∧ s.pc.toNat < 0xFFF ∧
    s.pc.toNat = 0xFFE ∧ decodeWord s.fetchWord = .ok i :=
  ⟨(startAt 0xFFE).writeBytes 0xFFE [0x6A, 0x7B], .ldVxNn 0xA 0x7B, by decide⟩

theorem witness_PlacedInstructionRunsNext : decodeTableWord 16 0x6A7B = some (.ldVxNn 0xA 0x7B) ∧ (startAt 0xFFE).pc.toNat < 0xFFF ∧
    0xFFD ≠ ((startAt 0xFFE).withFetchWord 16 0x6A7B).pc.toNat ∧ 0xFFD ≠ ((startAt 0xFFE).withFetchWord 16 0x6A7B).pc.toNat + 1 := by
  decide

/-- The first PC that is out of fetch range, with a quit that stands next. -/
theorem witness_PlacedInstructionRunsNext_quit : 0xFFF ≤ (startAt 0xFFF).pc.toNat ∧
    ({ start with inputs := [{ quiet with quit := true }, quiet] } : State).inputs = { quiet with quit := true } :: [quiet] := by
  decide

theorem witness_InvalidWordHalts : ∃ s e, s.status = .running ∧ (nextInput s).quit = false ∧ s.pc.toNat < 0xFFF ∧
    s.pc.toNat = 0xFFE ∧ decodeWord s.fetchWord = .error e :=
  ⟨startAt 0xFFE, _, rfl, rfl, by decide, rfl, rfl⟩

theorem witness_MemoryRangeHalts_fetch : (startAt 0xFFF).status = .running ∧ (nextInput (startAt 0xFFF)).quit = false ∧
    0xFFF ≤ (startAt 0xFFF).pc.toNat ∧
    IsLeast { b | (b = (startAt 0xFFF).pc.toNat ∨ b = (startAt 0xFFF).pc.toNat + 1) ∧ 4096 ≤ b } 4096 :=
  ⟨rfl, rfl, by decide, ⟨.inr rfl, le_refl _⟩, fun _ h => h.2⟩

/-- I = 0xFFF, N = 2. -/
theorem witness_MemoryRangeHalts_draw :
    IsLeast { b | ({ start with i := 0xFFF } : State).i.toNat ≤ b ∧ b < ({ start with i := 0xFFF } : State).i.toNat + (2 : Nibble).toNat ∧ 4096 ≤ b }
      4096 :=
  ⟨⟨by decide, by decide, le_refl _⟩, fun _ h => h.2.2⟩

/-- I = 0xFFE, three bytes. -/
theorem witness_MemoryRangeHalts_bcd :
    IsLeast { b | ({ start with i := 0xFFE } : State).i.toNat ≤ b ∧ b < ({ start with i := 0xFFE } : State).i.toNat + 3 ∧ 4096 ≤ b } 4096 :=
  ⟨⟨by decide, by decide, le_refl _⟩, fun _ h => h.2.2⟩

/-- I = 0xFFFF, X = 0. -/
theorem witness_MemoryRangeHalts_block :
    IsLeast { b | ({ start with i := 0xFFFF } : State).i.toNat ≤ b ∧ b ≤ ({ start with i := 0xFFFF } : State).i.toNat + (0 : RegIx).toNat ∧
      4096 ≤ b } 0xFFFF :=
  ⟨⟨by decide, by decide, by decide⟩, fun _ h => h.1⟩

theorem witness_QuitStopsBeforeTheStep : start.status = .running ∧ (nextInput start).quit = false ∧ (∃ t, step start = .next t) ∧
    (nextInput { start with inputs := [{ quiet with quit := true }] }).quit = true :=
  ⟨rfl, rfl, ⟨_, rfl⟩, rfl⟩

theorem witness_HaltIsPreciseAndFinal : ∃ t, start.status = .running ∧ step start = .next t ∧ t.status ≠ .running :=
  ⟨_, rfl, rfl, by decide⟩

theorem witness_HaltedSessionStaysHalted : ({ start with status := .halted .quit 0x200 0 0 } : State).status ≠ .running := by decide

theorem witness_inv_start : State.Inv start := ⟨by decide, by decide, by decide, by decide, trivial⟩

/-- SP = 16 and an entry at its bound, in a state that has the invariant; and SP = 0. -/
theorem witness_RetPopsOrUnderflows : ∃ s : State, s.sp.val = (15 : Fin 16).val + 1 ∧ State.Inv s ∧ (s.stack[15]).toNat = 0xFFE :=
  ⟨{ start with sp := 16, stack := start.stack.set 15 0xFFE }, by decide, ⟨by decide, by decide, by decide, by decide, trivial⟩, by decide⟩

theorem witness_RetPopsOrUnderflows_empty : start.sp.val = 0 := by decide

theorem witness_CallPushesOrOverflows : ({ start with sp := 16 } : State).sp.val = 16 ∧
    ({ start with sp := 15 } : State).sp.val = (15 : Fin 16).val ∧ start.sp.val = (0 : Fin 16).val := by decide

theorem witness_CallThenRetRoundTrip : ({ start with sp := 15 } : State).sp.val < 16 := by decide

theorem witness_register_not_F : (0xE : RegIx) ≠ 0xF := by decide

/-- The last row that fits, no row at all, and one row too many. -/
theorem witness_DrawFlipsCoveredPixels : ({ start with i := 0xFFF } : State).i.toNat + (1 : Nibble).toNat ≤ 4096 ∧
    ((2 : Nibble) ≠ 0 ∧ 4096 < ({ start with i := 0xFFF } : State).i.toNat + (2 : Nibble).toNat) := by decide

/-- A sprite with one bit, over a pixel that is on. -/
theorem witness_DrawFlipsCoveredPixels_collision : ∃ px py,
    SpriteCovers (lit (start.writeMem 0 0x80) 0 0) 0 1 0 0 px py ∧ pixel (lit (start.writeMem 0 0x80) 0 0).fb px py = true :=
  ⟨0, 0, ⟨0, 0, by decide⟩, by decide⟩

/-- The same sprite on a clear screen. -/
theorem witness_DrawFlipsCoveredPixels_clear : ∀ px py, SpriteCovers start 0 1 0 0 px py → pixel start.fb px py = false := by
  intro px py _
  simp [pixel, start, State.reset]

/-- Glyph 0 drawn twice at (0, 0), the first time on a clear screen. -/
theorem witness_DrawTwiceRestores : ∃ t u, ((5 : Nibble) = 0 ∨ start.i.toNat + (5 : Nibble).toNat ≤ 4096) ∧
    exec (.drwVxVyN 2 3 5) start = .next t ∧ t.fb = t.fb ∧ t.i = start.i ∧ (∀ a, t.readMem a = start.readMem a) ∧
    t.getV 2 = start.getV 2 ∧ t.getV 3 = start.getV 3 ∧ exec (.drwVxVyN 2 3 5) t = .next u ∧
    (∀ px py, pixel start.fb px py = false) ∧
    ∃ px py, SpriteCovers start start.i.toNat (5 : Nibble).toNat (start.getV 2).toNat (start.getV 3).toNat px py :=
  ⟨_, _, by decide, rfl, rfl, rfl, fun _ => rfl, rfl, rfl, rfl, by intro px py; simp [pixel, start, State.reset], 0, 0, 0, 0, by decide⟩

theorem witness_KeySkips : ((start.setV 5 15).getV 5).toNat = (15 : Fin 16).val ∧ 15 < ((start.setV 5 16).getV 5).toNat := by decide

/-- Only the highest key down; no key down. -/
theorem witness_KeyWaitCapturesLowest : ((keyDown start 0xF).keys[15] = true ∧
    ∀ j : Fin 16, j < 15 → (keyDown start 0xF).keys[j.val] = false) ∧ ∀ k : Fin 16, start.keys[k.val] = false := by decide

theorem witness_BcdStoresThreeDigits : ({ start with i := 0xFFD } : State).i.toNat + 2 < 4096 ∧
    4096 ≤ ({ start with i := 0xFFE } : State).i.toNat + 2 := by decide

theorem witness_block_transfer : ({ start with i := 0xFF0 } : State).i.toNat + (0xF : RegIx).toNat < 4096 ∧
    4096 ≤ ({ start with i := 0xFF1 } : State).i.toNat + (0xF : RegIx).toNat ∧ (0xE : RegIx).toNat < (0xF : RegIx).toNat := by decide

theorem witness_ByteReadsAsLastWritten : 4095 < 4096 ∧ 0 ≠ 4095 := by decide

theorem witness_StoredBytesAreFetched : ∃ s r : State, s.i = s.pc + 2 ∧ 1 ≤ (1 : RegIx).toNat ∧ s.i.toNat + (1 : RegIx).toNat = 4095 ∧
    r.i = r.pc + 2 ∧ r.i.toNat + 2 = 4095 :=
  ⟨{ startAt 0xFFC with i := 0xFFE }, { startAt 0xFFB with i := 0xFFD }, by decide⟩

/-- A CLS that changes the screen, as an instruction and as a step. -/
theorem witness_PortsAndScreenAreTouchedOnlyAsNamed : ∃ s t u, exec .cls s = .next t ∧ (∀ x nn, Instr.cls ≠ .rndVxNn x nn) ∧
    pixel t.fb 0 0 ≠ pixel s.fb 0 0 ∧ step (s.withFetchWord 16 0x00E0) = .next u ∧ pixel u.fb 0 0 ≠ pixel s.fb 0 0 :=
  ⟨lit start 0 0, _, _, rfl, (fun _ _ h => nomatch h), by decide, rfl, by decide⟩

/-- One instruction for each clause that changes the state the clause is about. -/
theorem witness_OnlyNamedInstructionsWrite : (∃ t, exec (.ldVxNn 1 5) start = .next t ∧ t.getV 1 ≠ start.getV 1) ∧
    (∃ t, exec (.subVxVy 1 2) start = .next t ∧ t.getV 0xF ≠ start.getV 0xF) ∧
    (∃ t, exec .cls (lit start 0 0) = .next t ∧ pixel t.fb 0 0 ≠ pixel (lit start 0 0).fb 0 0) ∧
    (∃ t, exec .ret start = .next t ∧ t.status ≠ start.status) ∧
    (∃ t, exec (.ldINnn 5) start = .next t ∧ t.i ≠ start.i) ∧
    (∃ t, exec (.callNnn 5) start = .next t ∧ t.stack ≠ start.stack ∧ t.sp ≠ start.sp) ∧
    (∃ t, exec (.ldDtVx 1) (start.setV 1 5) = .next t ∧ t.dt ≠ (start.setV 1 5).dt) ∧
    (∃ t, exec (.ldStVx 1) (start.setV 1 5) = .next t ∧ t.st ≠ (start.setV 1 5).st) ∧
    (∃ t, exec (.ldBVx 1) start = .next t ∧ t.mem ≠ start.mem) :=
  ⟨⟨_, rfl, by decide⟩, ⟨_, rfl, by decide⟩, ⟨_, rfl, by decide⟩, ⟨_, rfl, by decide⟩, ⟨_, rfl, by decide⟩,
    ⟨_, rfl, by decide, by decide⟩, ⟨_, rfl, by decide⟩, ⟨_, rfl, by decide⟩, ⟨_, rfl, by decide⟩⟩

theorem witness_SoundTimerIsNeverRead : (∃ t, exec .cls start = .next t ∧ ∀ x, Instr.cls ≠ .ldStVx x) ∧
    ∃ t, exec (.ldStVx 0xF) start = .next t :=
  ⟨⟨_, rfl, (fun _ h => nomatch h)⟩, _, rfl⟩

theorem witness_InstructionsHaltOnlyForTheirCauses : ∃ t, exec .ret start = .next t ∧ t.status ≠ start.status :=
  ⟨_, rfl, by decide⟩

/-- No time, and exactly two periods (of which one tick is delivered). -/
theorem witness_SyncDeliversExactTicks : (start.acc60 + 60 * 0 ≤ (0 + 1) * 1000000000) ∧
    (1 * 1000000000 < ({ start with acc60 := 20 } : State).acc60 + 60 * 33333333 ∧
      ({ start with acc60 := 20 } : State).acc60 + 60 * 33333333 = (1 + 1) * 1000000000) := by decide

theorem witness_TimerCadenceAt500 : start.acc60 = 0 ∧ (0 < 1 ∧ 1 ≤ 16666666) ∧ (0 < 16666666 ∧ 16666666 ≤ 16666666) := by decide

theorem witness_RateAndCycle : 0 < 1 ∧ Config.resolveRate (some 1) = 1 := by decide

theorem witness_LoadKeepsInvariant : ∃ t, State.Inv start ∧ start.status = .running ∧ load [0x12, 0x00] start = .ok t :=
  ⟨_, witness_inv_start, rfl, rfl⟩

theorem witness_StepKeepsInvariant : ∃ t, State.Inv start ∧ step start = .next t := ⟨_, witness_inv_start, rfl⟩

/-- A halted state that has the invariant. -/
theorem witness_StepKeepsInvariant_halted : State.Inv { start with status := .halted .memoryRange 0xFFF 0 4096, pc := 0xFFF } :=
  ⟨by decide, by decide, by decide, by decide, rfl, by decide, .inl ⟨by decide, rfl⟩⟩

end Sys2Proof.Tests
end

section
/-! PROOFS of 00_scope.md: which instructions touch which piece of state (O44, O45). What an instruction can do to a field
other than V is read off `exec_cases`; for V, and for port `rnd`, there is one lemma per shared operation. -/

namespace Sys2Proof.Machine

/-! ### KEY and FB, for an instruction and for a step (R11) -/

theorem exec_keys {i : Instr} {s t : State} (h : exec i s = .next t) : t.keys = s.keys := by
  rcases exec_cases i s t h with ⟨c, info, rfl, -⟩ | ⟨-, hkeys, -⟩
  · rfl
  · exact hkeys

theorem exec_fb {i : Instr} {s t : State} (h : exec i s = .next t) :
    t.fb = s.fb ∨ i = .cls ∨ ∃ x y n, i = .drwVxVyN x y n := by
  rcases exec_cases i s t h with ⟨c, info, rfl, -⟩ | ⟨-, -, -, -, -, -, hfb, -⟩
  · exact .inl rfl
  · exact hfb

theorem instructionStep_keys {s t : State} (h : instructionStep s = .next t) : t.keys = s.keys := by
  rcases instructionStep_cases s with ⟨-, e⟩ | ⟨-, _, -, e⟩ | ⟨-, i, -, e⟩ <;> rw [e] at h
  · cases h; rfl
  · cases h; rfl
  · exact exec_keys h

theorem instructionStep_fb {s t : State} (h : instructionStep s = .next t) :
    t.fb = s.fb ∨ decodeWord s.fetchWord = .ok .cls ∨ ∃ x y n, decodeWord s.fetchWord = .ok (.drwVxVyN x y n) := by
  rcases instructionStep_cases s with ⟨-, e⟩ | ⟨-, _, -, e⟩ | ⟨-, i, hd, e⟩ <;> rw [e] at h
  · cases h; exact .inl rfl
  · cases h; exact .inl rfl
  · rcases exec_fb h with hfb | rfl | ⟨x, y, n, rfl⟩
    · exact .inl hfb
    · exact .inr (.inl hd)
    · exact .inr (.inr ⟨x, y, n, hd⟩)

@[simp] theorem clockBookkeeping_keys (e : Nat) (s : State) : (clockBookkeeping e s).keys = s.keys := by
  unfold clockBookkeeping; split <;> rfl

@[simp] theorem clockBookkeeping_fb (e : Nat) (s : State) : (clockBookkeeping e s).fb = s.fb := by
  unfold clockBookkeeping; split <;> rfl

theorem step_keys {s t : State} (h : step s = .next t) : t.keys = s.keys ∨ t.keys = (poll s).keys := by
  rcases step_cases h with ⟨-, rfl⟩ | ⟨-, -, rfl⟩ | ⟨-, -, u, hu, rfl⟩
  · exact .inl rfl
  · exact .inr rfl
  · exact .inr ((clockBookkeeping_keys _ u).trans (instructionStep_keys hu))

theorem step_fb {s t : State} (h : step s = .next t) :
    t.fb = s.fb ∨ decodeWord s.fetchWord = .ok .cls ∨ ∃ x y n, decodeWord s.fetchWord = .ok (.drwVxVyN x y n) := by
  rcases step_cases h with ⟨-, rfl⟩ | ⟨-, -, rfl⟩ | ⟨-, -, u, hu, rfl⟩
  · exact .inl rfl
  · exact .inl rfl
  · simpa using instructionStep_fb hu

/-! ### Port `rnd` is read by CXNN alone (R11) -/

theorem drawRows_rndPort (s : State) (r x0 y0 : Byte) (p : Canvas) (k : Nat) :
    drawRows { s with rndPort := r } x0 y0 p k = drawRows s x0 y0 p k := by
  induction k with
  | zero => rfl
  | succ k ih => rw [drawRows, ih]; rfl

theorem drawSprite_rndPort (x y : RegIx) (n : Nibble) (s : State) (r : Byte) :
    drawSprite x y n { s with rndPort := r } = drawSprite x y n s :=
  drawRows_rndPort s r _ _ _ _

theorem State.writeBytes_rndPort (s : State) (r : Byte) (a : Nat) (bs : List Byte) :
    ({ s with rndPort := r } : State).writeBytes a bs = { s.writeBytes a bs with rndPort := r } := by
  induction bs generalizing s a with
  | nil => rfl
  | cons b bs ih => exact ih (s.writeMem a b) (a + 1)

theorem State.loadRegs_rndPort (s : State) (r : Byte) (a k : Nat) :
    ({ s with rndPort := r } : State).loadRegs a k = { s.loadRegs a k with rndPort := r } := by
  induction k with
  | zero => rfl
  | succ k ih => rw [State.loadRegs, ih]; rfl

/-- A range-checked instruction is as blind to port `rnd` as its effect is. -/
theorem guardRange_rndPort {base len : Nat} {w : Word} {s t u : State} (r : Byte) (h : guardRange base len w s t = .next u) :
    guardRange base len w { s with rndPort := r } { t with rndPort := r } = .next { u with rndPort := r } := by
  unfold guardRange at h ⊢
  split at h <;> cases h <;> rfl

theorem skipOnKey_rndPort {x : RegIx} {c : Bool} {w : Word} {s t : State} (r : Byte) (h : skipOnKey x c w s = .next t) :
    skipOnKey x c w { s with rndPort := r } = .next { t with rndPort := r } := by
  have hk : ({ s with rndPort := r } : State).keyAt (s.getV x) = s.keyAt (s.getV x) := rfl
  have hv : ({ s with rndPort := r } : State).getV x = s.getV x := rfl
  simp only [skipOnKey, hv, hk] at h ⊢
  split at h <;> cases h <;> rfl

theorem State.pop_rndPort (s : State) (r : Byte) :
    ({ s with rndPort := r } : State).pop = s.pop.map fun p => (p.1, { p.2 with rndPort := r }) := by
  simp only [State.pop]
  split <;> rfl

theorem State.push_rndPort (s : State) (r : Byte) (w : Word) :
    ({ s with rndPort := r } : State).push w = (s.push w).map fun t => { t with rndPort := r } := by
  simp only [State.push]
  split <;> rfl

theorem exec_rndPort {i : Instr} {s t : State} (r : Byte) (hi : ∀ x nn, i ≠ .rndVxNn x nn) (h : exec i s = .next t) :
    exec i { s with rndPort := r } = .next { t with rndPort := r } := by
  cases i
  case rndVxNn x nn => exact absurd rfl (hi x nn)
  case ret =>
    simp only [exec, execRet, State.pop_rndPort] at h ⊢
    cases hp : s.pop <;> rw [hp] at h <;> cases h <;> rfl
  case callNnn nnn =>
    simp only [exec, execCallNnn, State.push_rndPort] at h ⊢
    cases hp : s.push s.pc <;> rw [hp] at h <;> cases h <;> rfl
  case skpVx | sknpVx => exact skipOnKey_rndPort r h
  case ldVxK x =>
    have hk : ({ s with rndPort := r } : State).lowestKey = s.lowestKey := rfl
    simp only [exec, execLdVxK, hk] at h ⊢
    split at h <;> cases h <;> rfl
  case drwVxVyN x y n =>
    simp only [exec, execDrwVxVyN, drawSprite_rndPort] at h ⊢
    exact guardRange_rndPort r h
  case ldBVx | ldMemVx =>
    simp only [exec, execLdBVx, execLdMemVx, State.writeBytes_rndPort] at h ⊢
    exact guardRange_rndPort r h
  case ldVxMem x =>
    simp only [exec, execLdVxMem, State.loadRegs_rndPort] at h ⊢
    exact guardRange_rndPort r h
  case cls | jpNnn | seVxNn | sneVxNn | seVxVy | sneVxVy | ldINnn | jpV0Nnn | ldDtVx | ldStVx | addIVx | ldFVx =>
    cases h; rfl
  case ldVxNn | addVxNn | ldVxVy | orVxVy | andVxVy | xorVxVy | addVxVy | subVxVy | shrVx | subnVxVy | shlVx | ldVxDt =>
    cases h; rfl

/-! ### The general registers (R21, R22) -/

theorem getV_of_writeResult {x r : RegIx} {b : Byte} {s t : State} (h : writeResult x b s = .next t) (hr : (r == x) = false) :
    t.getV r = s.getV r := by
  cases h
  exact State.getV_setV_of_ne (by simpa using hr)

theorem getV_of_writeResultAndFlag {x r : RegIx} {b : Byte} {f : Bool} {s t : State}
    (h : writeResultAndFlag x b f s = .next t) (hr : (r == x) = false) (hF : r ≠ 0xF) : t.getV r = s.getV r := by
  cases h
  rw [getV_resultAndFlag, if_neg hF, if_neg (by simpa using hr)]

theorem getV_of_guardRange {base len : Nat} {w : Word} {s t u : State} {r : RegIx} (h : guardRange base len w s t = .next u)
    (ht : t.getV r = s.getV r) : u.getV r = s.getV r := by
  rcases guardRange_cases base len w s t with ⟨-, e⟩ | ⟨-, -, e⟩ <;> rw [e] at h <;> cases h
  · exact ht
  · rfl

theorem getV_of_skipOnKey {x r : RegIx} {c : Bool} {w : Word} {s t : State} (h : skipOnKey x c w s = .next t) :
    t.getV r = s.getV r := by
  rcases skipOnKey_cases x c w s with ⟨k, -, e⟩ | ⟨-, e⟩ <;> rw [e] at h <;> cases h <;> rfl

@[simp] theorem State.getV_writeBytes (s : State) (a : Nat) (bs : List Byte) (r : RegIx) :
    (s.writeBytes a bs).getV r = s.getV r := by
  rw [State.writeBytes_eq]; rfl

/-- An instruction keeps every register that is neither its destination nor the flag it writes. -/
theorem exec_getV {i : Instr} {s t : State} {r : RegIx} (h : exec i s = .next t) (hd : i.writesAsDestination r = false)
    (hf : r = 0xF → i.writesFlag = false) : t.getV r = s.getV r := by
  cases i
  case ldVxNn | addVxNn | ldVxVy | orVxVy | andVxVy | xorVxVy | rndVxNn | ldVxDt => exact getV_of_writeResult h hd
  case addVxVy | subVxVy | shrVx | subnVxVy | shlVx =>
    exact getV_of_writeResultAndFlag h hd (fun hF => nomatch hf hF)
  case drwVxVyN =>
    exact getV_of_guardRange h (State.getV_setV_of_ne (fun hF => nomatch hf hF))
  case ldVxK x =>
    simp only [exec, execLdVxK] at h
    split at h
    · exact getV_of_writeResult h hd
    · cases h; rfl
  case ldVxMem x =>
    refine getV_of_guardRange h ?_
    have hx : ¬r.toNat < x.toNat + 1 := by simpa [Instr.writesAsDestination, Nat.lt_succ_iff] using hd
    rw [State.getV_advance, State.getV_setI, State.getV_loadRegs _ _ _ x.isLt, if_neg hx]
  case ldBVx | ldMemVx => exact getV_of_guardRange h (by simp)
  case skpVx | sknpVx => exact getV_of_skipOnKey h
  case ret =>
    simp only [exec, execRet] at h
    rcases s.pop_cases with ⟨j, -, e⟩ | ⟨-, e⟩ <;> rw [e] at h <;> cases h <;> rfl
  case callNnn nnn =>
    simp only [exec, execCallNnn] at h
    rcases s.push_cases s.pc with ⟨hj, e⟩ | ⟨-, e⟩ <;> rw [e] at h <;> cases h <;> rfl
  case cls | jpNnn | seVxNn | sneVxNn | seVxVy | sneVxVy | ldINnn | jpV0Nnn | ldDtVx | ldStVx | addIVx | ldFVx =>
    cases h; rfl

/-! ### The run status (R123) -/

theorem HaltReason.instr_eq {i : Instr} {s : State} {c : HaltCause} {info : Nat} (h : HaltReason i s c info) :
    i = .ret ∨ (∃ nnn, i = .callNnn nnn) ∨ (∃ x, i = .skpVx x ∨ i = .sknpVx x) ∨
      (∃ x y n, i = .drwVxVyN x y n) ∨ ∃ x, i = .ldBVx x ∨ i = .ldMemVx x ∨ i = .ldVxMem x := by
  rcases h with ⟨-, -, -, hi⟩ | ⟨-, -, -, hi⟩ | ⟨-, x, -, -, hi⟩ |
    ⟨-, -, ⟨x, y, n, hi, -⟩ | ⟨x, hi, -⟩ | ⟨x, hi, -⟩⟩
  · exact .inr (.inl hi)
  · exact .inl hi
  · exact .inr (.inr (.inl ⟨x, hi⟩))
  · exact .inr (.inr (.inr (.inl ⟨x, y, n, hi⟩)))
  · exact .inr (.inr (.inr (.inr ⟨x, .inl hi⟩)))
  · exact .inr (.inr (.inr (.inr ⟨x, .inr hi⟩)))

end Sys2Proof.Machine

open Sys2Proof Sys2Proof.Machine

/-- Settles O44: an instruction by its field lemmas and `exec_rndPort`, a step by what its poll and instruction do. -/
theorem portsAndScreenAreTouchedOnlyAsNamed : Obligations.PortsAndScreenAreTouchedOnlyAsNamed :=
  ⟨fun _ _ _ h => ⟨exec_keys h, fun hi r => exec_rndPort r hi h, (exec_fb h).resolve_left⟩,
    fun _ _ h => ⟨step_keys h, (step_fb h).resolve_left⟩⟩

/-- Settles O45: V by `exec_getV`; for every other field, a halt writes only status, and a completion says who writes. -/
theorem onlyNamedInstructionsWrite : Obligations.OnlyNamedInstructionsWrite := by
  intro i s t h
  refine ⟨fun r hr => ?_, ?_⟩
  · by_contra hn
    rw [not_or, not_and] at hn
    exact hr (exec_getV h (by simpa using hn.1) (fun hF => by simpa using hn.2 hF))
  rcases exec_cases i s t h with ⟨c, info, rfl, hreason⟩ |
    ⟨hstatus, hkeys, hacc, hrnd, hinputs, hpolls, hfb, hI, hstack, hdt, hst, hmem, -⟩
  · exact ⟨absurd rfl, absurd rfl, absurd rfl, absurd rfl, absurd rfl, absurd rfl, absurd rfl,
      fun _ => hreason.instr_eq, rfl, rfl, rfl, rfl, rfl⟩
  · refine ⟨hI.resolve_left, fun hne => ?_, fun hne => ?_, hdt.resolve_left, hst.resolve_left,
      fun hne => (hmem.resolve_left hne).1, hfb.resolve_left, absurd hstatus, hkeys, hacc, hrnd, hinputs, hpolls⟩
    · rcases hstack with ⟨e, -⟩ | ⟨nnn, hi, -⟩ | ⟨-, e, -⟩
      · exact absurd e hne
      · exact ⟨nnn, hi⟩
      · exact absurd e hne
    · rcases hstack with ⟨-, e⟩ | ⟨nnn, hi, -⟩ | ⟨hi, -⟩
      · exact absurd e hne
      · exact .inl ⟨nnn, hi⟩
      · exact .inr hi
end

section
/-! PROOFS of 10_state.md: the state after reset (O8, O9, O53), the input poll (O14), the sound timer (O46) and the
invariant (O55). -/

namespace Sys2Proof

/-! ### A word that decodes is the word of its instruction (R65–R77) -/

theorem formatA_of_fieldOp {w : Word} {op : Nibble} (h : fieldOp w = op) : formatA op (fieldNnn w) = w :=
  h ▸ formatA_of_fields w

theorem formatXNN_of_fieldOp {w : Word} {op : Nibble} {nn : Byte} (h : fieldOp w = op) (hnn : fieldNn w = nn) :
    formatXNN op (fieldX w) nn = w :=
  h ▸ hnn ▸ formatXNN_of_fields w

theorem formatXYN_of_fieldOp {w : Word} {op n : Nibble} (h : fieldOp w = op) (hn : fieldN w = n) :
    formatXYN op (fieldX w) (fieldY w) n = w :=
  h ▸ hn ▸ formatXYN_of_fields w

theorem encode_of_decode0 {w : Word} {i : Instr} (h : decode0 w = .ok i) : encode i = w := by
  unfold decode0 at h
  split at h
  · cases h; exact Eq.symm ‹_›
  · split at h <;> cases h
    exact Eq.symm ‹_›

theorem encode_of_decode8 {w : Word} {i : Instr} (hop : fieldOp w = 0x8) (h : decode8 w = .ok i) : encode i = w := by
  unfold decode8 at h
  split at h <;> cases h <;> exact formatXYN_of_fieldOp hop (BitVec.eq_of_toNat_eq ‹_›)

theorem encode_of_decode9 {w : Word} {i : Instr} (hop : fieldOp w = 0x9) (h : decode9 w = .ok i) : encode i = w := by
  unfold decode9 at h
  split at h <;> cases h
  exact formatXYN_of_fieldOp hop rfl

theorem encode_of_decodeE {w : Word} {i : Instr} (hop : fieldOp w = 0xE) (h : decodeE w = .ok i) : encode i = w := by
  unfold decodeE at h
  repeat' split at h
  all_goals cases h
  all_goals exact formatXNN_of_fieldOp hop ‹_›

theorem encode_of_decodeF {w : Word} {i : Instr} (hop : fieldOp w = 0xF) (h : decodeF w = .ok i) : encode i = w := by
  unfold decodeF at h
  repeat' split at h
  all_goals cases h
  all_goals exact formatXNN_of_fieldOp hop ‹_›

/-- Log 12: the word an instruction records when it halts is the one that was fetched. -/
theorem encode_of_decodeWord {w : Word} {i : Instr} (h : decodeWord w = .ok i) : encode i = w := by
  unfold decodeWord at h
  split at h
  case h_1 => exact encode_of_decode0 h
  case h_2 hop | h_3 hop | h_11 hop | h_12 hop => cases h; exact formatA_of_fieldOp (BitVec.eq_of_toNat_eq hop)
  case h_4 hop | h_5 hop | h_7 hop | h_8 hop | h_13 hop =>
    cases h; exact formatXNN_of_fieldOp (BitVec.eq_of_toNat_eq hop) rfl
  case h_6 hop | h_14 hop => cases h; exact formatXYN_of_fieldOp (BitVec.eq_of_toNat_eq hop) rfl
  case h_9 hop => exact encode_of_decode8 (BitVec.eq_of_toNat_eq hop) h
  case h_10 hop => exact encode_of_decode9 (BitVec.eq_of_toNat_eq hop) h
  case h_15 hop => exact encode_of_decodeE (BitVec.eq_of_toNat_eq hop) h
  case h_16 =>
    have hlt : (fieldOp w).toNat < 16 := (fieldOp w).isLt
    have hop : (fieldOp w).toNat = 15 := by simp only [imp_false] at *; omega
    exact encode_of_decodeF (BitVec.eq_of_toNat_eq hop) h

end Sys2Proof

namespace Sys2Proof.Machine

/-! ### The invariant, kept by each part of a step -/

theorem State.Inv.poll {s : State} (h : s.Inv) (hr : s.status = .running) : (poll s).Inv :=
  ⟨h.memWf, h.pcBound, h.stackBound, h.accBound, by rw [poll_status, hr]; trivial⟩

theorem State.Inv.sync {s : State} (h : s.Inv) (hr : s.status = .running) (e : Nat) : (sync e s).Inv :=
  ⟨h.memWf, h.pcBound, h.stackBound, sync_acc_le e s, by rw [show (Machine.sync e s).status = .running from hr]; trivial⟩

theorem State.Inv.clockBookkeeping {s : State} (h : s.Inv) (e : Nat) : (clockBookkeeping e s).Inv := by
  by_cases hr : s.status = .running
  · rw [clockBookkeeping_running hr]; exact h.sync hr e
  · rwa [clockBookkeeping_halted hr]

/-- A halt keeps the invariant when its record agrees with the state it halts. -/
theorem State.Inv.halt {s : State} (h : s.Inv) {c : HaltCause} {w : Word} {info : Nat}
    (hrec : HaltRecordAgrees s (.halted c s.pc w info)) : (s.halt c w info).Inv :=
  ⟨h.memWf, h.pcBound, h.stackBound, h.accBound, by cases c <;> exact hrec⟩

/-- The record of an instruction that was fetched at PC and halts (R123). -/
theorem HaltReason.recordAgrees {i : Instr} {s : State} {c : HaltCause} {info : Nat} (h : HaltReason i s c info)
    (hpc : s.pc.toNat + 1 < Config.memSize) (hd : decodeWord s.fetchWord = .ok i) :
    HaltRecordAgrees s (.halted c s.pc (encode i) info) := by
  have hw : encode i = s.fetchWord := encode_of_decodeWord hd
  rcases h with ⟨rfl, rfl, hsp, nnn, rfl⟩ | ⟨rfl, rfl, hsp, rfl⟩ | ⟨rfl, x, hinfo, hlt, -⟩ | ⟨rfl, hle, -⟩
  · exact ⟨rfl, hw, rfl, hsp, nnn, hw ▸ hd⟩
  · exact ⟨rfl, hw, rfl, hsp, rfl⟩
  · exact ⟨rfl, hw, hlt, x, hinfo⟩
  · exact ⟨rfl, hle, .inr ⟨hpc, hw⟩⟩

/-- Where an instruction fetched in range leaves PC: at most 0x10FE, the highest target of BNNN (R24, R104). -/
theorem Completion.pcBound {i : Instr} {s t : State} (hc : Completion i s t) (h : s.Inv)
    (hpc : s.pc.toNat + 1 < Config.memSize) : t.pc.toNat ≤ 0x10FE := by
  obtain ⟨-, -, -, -, -, -, -, -, -, -, -, -, ht⟩ := hc
  simp only [Config.memSize] at hpc
  rcases ht with e | e | e | ⟨nnn, e⟩ | ⟨nnn, e⟩ | ⟨-, j, e⟩ <;> rw [e]
  · omega
  · bv_omega
  · bv_omega
  · simp only [addressOf]
    bv_omega
  · simp only [addressOf]
    bv_omega
  · have := h.stackBound j
    simp only [Config.memSize] at this
    bv_omega

/-- The one entry a CALL pushes is the address it was fetched from (R86). -/
theorem Completion.stackBound {i : Instr} {s t : State} (hc : Completion i s t) (h : s.Inv)
    (hpc : s.pc.toNat + 1 < Config.memSize) (j : Fin 16) : (t.stack[j.val]).toNat + 1 < Config.memSize := by
  obtain ⟨-, -, -, -, -, -, -, -, hstack, -⟩ := hc
  rcases hstack with ⟨e, -⟩ | ⟨-, -, hsp, e, -⟩ | ⟨-, e, -⟩ <;> simp only [e]
  · exact h.stackBound j
  · rw [Vector.getElem_set]
    split
    · exact hpc
    · exact h.stackBound j
  · exact h.stackBound j

theorem Completion.memWf {i : Instr} {s t : State} (hc : Completion i s t) (h : s.Inv) : Memory.wf t.mem = true := by
  obtain ⟨-, -, -, -, -, -, -, -, -, -, -, hmem, -⟩ := hc
  rcases hmem with e | ⟨-, bs, e⟩ <;> rw [e]
  · exact h.memWf
  · exact State.wf_writeBytes h.memWf

theorem Completion.inv {i : Instr} {s t : State} (hc : Completion i s t) (h : s.Inv) (hr : s.status = .running)
    (hpc : s.pc.toNat + 1 < Config.memSize) : t.Inv where
  memWf := hc.memWf h
  pcBound := hc.pcBound h hpc
  stackBound := hc.stackBound h hpc
  accBound := by obtain ⟨-, -, hacc, -⟩ := hc; exact hacc ▸ h.accBound
  recordAgrees := by obtain ⟨hstatus, -⟩ := hc; rw [hstatus, hr]; trivial

/-- The instruction step keeps the invariant: the two halts of the fetch, and the instruction's halt or completion. -/
theorem State.Inv.instructionStep {s t : State} (h : s.Inv) (hr : s.status = .running)
    (ht : instructionStep s = .next t) : t.Inv := by
  rcases instructionStep_cases s with ⟨hpc, e⟩ | ⟨hpc, err, hd, e⟩ | ⟨hpc, i, hd, e⟩ <;> rw [e] at ht
  · cases ht
    exact h.halt ⟨rfl, le_max_right _ _, .inl ⟨hpc, rfl⟩⟩
  · cases ht
    exact h.halt ⟨rfl, rfl, rfl, err, hd⟩
  · rcases exec_cases i s t ht with ⟨c, info, rfl, hreason⟩ | hc
    · exact h.halt (hreason.recordAgrees hpc hd)
    · exact hc.inv h hr hpc

/-! ### The state after reset and the loaded image (R40–R44, R51) -/

theorem Memory.unlisted_of_ge {a : Nat} (h : 0x50 ≤ a) : Memory.unlisted a = 0 := by
  have hlen : Config.font.length ≤ a - Config.fontBase := h
  rw [Memory.unlisted, List.getD_eq_default _ _ hlen, ite_self]

theorem pixel_reset (x : Fin 64) (y : Fin 32) : pixel State.reset.fb x y = false := by
  simp [pixel, State.reset]

/-- A load that succeeds writes an image that fits from PROGRAM_ORIGIN on (R63, R144). -/
theorem load_eq_ok {image : List Byte} {s t : State} (h : load image s = .ok t) :
    image.length ≤ Config.maxProgram ∧ t = s.writeBytes Config.programOrigin image := by
  unfold load at h
  split at h <;> cases h
  exact ⟨‹_›, rfl⟩

/-- What every address reads as in a state an image was loaded into. -/
theorem readMem_load {image : List Byte} {s t : State} (h : load image s = .ok t) (a : Nat) :
    t.readMem a = if 0x200 ≤ a ∧ a < 0x200 + image.length then image.getD (a - 0x200) 0 else s.readMem a := by
  obtain ⟨hfit, rfl⟩ := load_eq_ok h
  exact State.readMem_writeBytes (Nat.add_le_add_left hfit Config.programOrigin) a

theorem load_fb {image : List Byte} {s t : State} (h : load image s = .ok t) : t.fb = s.fb := by
  obtain ⟨-, rfl⟩ := load_eq_ok h
  rw [State.writeBytes_eq]

/-! ### The input poll (R34, R139) -/

theorem getElem_applyEvent (keys : Vector Bool 16) (e : KeyEvent) (k : RegIx) :
    (applyEvent keys e)[k.toNat]'k.isLt = if e.key = k then e.level else keys[k.toNat]'k.isLt := by
  cases e with
  | down j | up j =>
    by_cases hj : j = k <;> simp [applyEvent, KeyEvent.key, KeyEvent.level, BitVec.toNat_inj, hj]

/-- The last event about a key sets it. -/
theorem getElem_applyEvents (keys : Vector Bool 16) (es : List KeyEvent) (k : RegIx) :
    (applyEvents keys es)[k.toNat]'k.isLt =
      (es.reverse.find? (fun e => e.key = k)).elim (keys[k.toNat]'k.isLt) KeyEvent.level := by
  induction es using List.reverseRecOn with
  | nil => rfl
  | append_singleton es e ih =>
    have hlast : applyEvents keys (es ++ [e]) = applyEvent (applyEvents keys es) e := List.foldl_concat ..
    simp only [hlast, getElem_applyEvent, List.reverse_concat, List.find?_cons]
    by_cases hk : e.key = k
    · simp [hk]
    · simp [hk, ih]

/-! ### The sound timer is read by no instruction (R31) -/

/-- The draw unit reads I and memory, and of the state nothing else. -/
theorem drawRows_congr {s t : State} (hi : t.i = s.i) (hmem : ∀ a, t.readMem a = s.readMem a) (x0 y0 : Byte) (p : Canvas)
    (k : Nat) : drawRows t x0 y0 p k = drawRows s x0 y0 p k := by
  induction k with
  | zero => rfl
  | succ k ih => rw [drawRows, drawRows, ih, hi, hmem]

theorem drawSprite_st (x y : RegIx) (n : Nibble) (s : State) (v : Byte) :
    drawSprite x y n { s with st := v } = drawSprite x y n s :=
  drawRows_congr (s := s) (t := { s with st := v }) rfl (fun _ => rfl) _ _ _ _

theorem State.writeBytes_st (s : State) (v : Byte) (a : Nat) (bs : List Byte) :
    ({ s with st := v } : State).writeBytes a bs = { s.writeBytes a bs with st := v } := by
  induction bs generalizing s a with
  | nil => rfl
  | cons b bs ih => exact ih (s.writeMem a b) (a + 1)

theorem State.loadRegs_st (s : State) (v : Byte) (a k : Nat) :
    ({ s with st := v } : State).loadRegs a k = { s.loadRegs a k with st := v } := by
  induction k with
  | zero => rfl
  | succ k ih => rw [State.loadRegs, ih]; rfl

theorem guardRange_st {base len : Nat} {w : Word} {s t u : State} (v : Byte) (h : guardRange base len w s t = .next u) :
    guardRange base len w { s with st := v } { t with st := v } = .next { u with st := v } := by
  rcases guardRange_cases base len w s t with ⟨hin, e⟩ | ⟨h0, hout, e⟩ <;> rw [e] at h <;> cases h
  · exact guardRange_inside hin
  · exact guardRange_outside h0 hout

theorem skipOnKey_st {x : RegIx} {c : Bool} {w : Word} {s t : State} (v : Byte) (h : skipOnKey x c w s = .next t) :
    skipOnKey x c w { s with st := v } = .next { t with st := v } := by
  have hkey : ({ s with st := v } : State).keyAt (({ s with st := v } : State).getV x) = s.keyAt (s.getV x) := rfl
  rw [skipOnKey] at h ⊢
  rw [hkey]
  cases hd : s.keyAt (s.getV x) <;> rw [hd] at h <;> cases h <;> rfl

/-- Every instruction but FX18 carries ST along unread. -/
theorem exec_st {i : Instr} {s t : State} (v : Byte) (hi : ∀ x, i ≠ .ldStVx x) (h : exec i s = .next t) :
    exec i { s with st := v } = .next { t with st := v } := by
  cases i
  case ldStVx x => exact absurd rfl (hi x)
  case ret =>
    simp only [exec, execRet, State.pop] at h ⊢
    by_cases hsp : 0 < s.sp.val <;> simp only [hsp, dite_true, dite_false] at h ⊢ <;> cases h <;> rfl
  case callNnn nnn =>
    simp only [exec, execCallNnn, State.push] at h ⊢
    by_cases hsp : s.sp.val < 16 <;> simp only [hsp, dite_true, dite_false] at h ⊢ <;> cases h <;> rfl
  case skpVx | sknpVx => exact skipOnKey_st v h
  case ldVxK x =>
    have hkey : ({ s with st := v } : State).lowestKey = s.lowestKey := rfl
    simp only [exec, execLdVxK, hkey] at h ⊢
    split at h <;> cases h <;> rfl
  case drwVxVyN x y n =>
    simp only [exec, execDrwVxVyN, drawSprite_st] at h ⊢
    exact guardRange_st v h
  case ldBVx | ldMemVx =>
    simp only [exec, execLdBVx, execLdMemVx, State.writeBytes_st] at h ⊢
    exact guardRange_st v h
  case ldVxMem x =>
    simp only [exec, execLdVxMem, State.loadRegs_st] at h ⊢
    exact guardRange_st v h
  case cls | jpNnn | seVxNn | sneVxNn | seVxVy | sneVxVy | ldINnn | jpV0Nnn | ldDtVx | addIVx | ldFVx =>
    cases h; rfl
  case ldVxNn | addVxNn | ldVxVy | orVxVy | andVxVy | xorVxVy | addVxVy | subVxVy | shrVx | subnVxVy | shlVx | rndVxNn | ldVxDt =>
    cases h; rfl

end Sys2Proof.Machine

open Sys2Proof Sys2Proof.Machine

/-- Settles O55: a halted machine stands still, a quit halts with its record, and otherwise the poll, the instruction
step and the clock bookkeeping each keep the invariant. -/
theorem stepKeepsInvariant : Obligations.StepKeepsInvariant := by
  intro s t h hstep
  rcases step_cases hstep with ⟨-, rfl⟩ | ⟨hr, -, rfl⟩ | ⟨hr, -, u, hu, rfl⟩
  · exact h
  · exact (h.poll hr).halt ⟨rfl, rfl, rfl⟩
  · exact ((h.poll hr).instructionStep hr hu).clockBookkeeping _

/-- Settles O9: unlisted memory holds FONT and then zeros, and a load writes the image's own bytes alone. -/
theorem fontAndScreenAtReset : Obligations.FontAndScreenAtReset := by
  refine ⟨by decide, fun a h _ => Memory.unlisted_of_ge h, pixel_reset, fun image t h => ⟨?_, ?_, ?_, ?_⟩⟩
  · rw [load_fb h]
    exact pixel_reset
  · intro a ha
    rw [readMem_load h, if_neg (by omega)]
  · intro k hk
    rw [readMem_load h, if_pos (by omega), Nat.add_sub_cancel_left, List.getD_eq_getElem _ _ hk]
  · intro a hfont _ hoff
    rw [readMem_load h, if_neg (by omega)]
    exact Memory.unlisted_of_ge hfont

/-- Settles O14: the events are folded into KEY in order, so the last event about a key decides. -/
theorem pollAppliesKeyEvents : Obligations.PollAppliesKeyEvents := by
  refine fun s => ⟨fun k => ?_, rfl⟩
  simp only [poll_keys, getElem_applyEvents]
  cases (nextInput s).events.reverse.find? (fun e => e.key = k) <;> rfl

/-- Settles O46: FX18 overwrites ST with a register, and `exec_st` is every other instruction. -/
theorem soundTimerIsNeverRead : Obligations.SoundTimerIsNeverRead := by
  refine fun i s t v h => ⟨fun hi => exec_st v hi h, ?_⟩
  rintro ⟨x, rfl⟩
  cases h
  rfl

/-- Settles O8: the fields of `State.reset`, with the registers, the stack and the keys read entry by entry. -/
theorem registersAtReset : Obligations.RegistersAtReset :=
  ⟨fun x => Vector.getElem_replicate x.isLt, rfl, rfl, rfl, fun j => Vector.getElem_replicate j.isLt, rfl, rfl,
    fun k => Vector.getElem_replicate k.isLt, rfl, rfl⟩

/-- Settles O53: memory is empty, PC is 0x200, the stack and the accumulator are zero, and nothing has halted. -/
theorem invariantAtReset : Obligations.InvariantAtReset where
  memWf := reset_mem_wf
  pcBound := by decide
  stackBound := by decide
  accBound := Nat.zero_le _
  recordAgrees := trivial
end

section
/-! PROOFS of 20_memory.md: the loader (O10, O54), bytes stored over code (O43), the fetched word (O11) and a byte read
after a write (O42). -/

namespace Sys2Proof.Machine

/-! ### The loader (R63, R144) -/

theorem load_of_le {image : List Byte} (h : image.length ≤ 3584) (s : State) :
    load image s = .ok (s.writeBytes Config.programOrigin image) :=
  if_pos h

theorem load_of_gt {image : List Byte} (h : 3584 < image.length) (s : State) : load image s = .error .programTooLarge :=
  if_neg (Nat.not_le_of_gt h)

/-- A load writes memory alone. -/
theorem load_frame {image : List Byte} {s t : State} (h : load image s = .ok t) : t = { s with mem := t.mem } := by
  obtain ⟨-, rfl⟩ := load_eq_ok h
  exact State.writeBytes_eq ..

/-- With a working display, a session starts from the loaded state. -/
theorem boot_of_load_ok {image : List Byte} {t : State} (h : load image State.reset = .ok t) (inputs : List HostInput) :
    boot (some image) true inputs = .ok { t with inputs := inputs } := by
  simp [boot, h]

/-- Where the load is rejected, no session starts, whatever the display does. -/
theorem boot_of_load_error {image : List Byte} {e : BootFailure} (h : load image State.reset = .error e) (d : Bool)
    (inputs : List HostInput) : boot (some image) d inputs = .error e := by
  simp [boot, h]

/-- The loader keeps the invariant of a running state; a halt record would name a word that the image may overwrite. -/
theorem State.Inv.load {image : List Byte} {s t : State} (h : s.Inv) (hr : s.status = .running)
    (hl : load image s = .ok t) : t.Inv := by
  obtain ⟨-, rfl⟩ := load_eq_ok hl
  have hwf := State.wf_writeBytes (a := Config.programOrigin) (bs := image) h.memWf
  rw [State.writeBytes_eq]
  exact ⟨hwf, h.pcBound, h.stackBound, h.accBound, by rw [hr]; trivial⟩

/-! ### Bytes stored over the next instruction (R59, R78) -/

@[simp] theorem State.writeBytes_pc (s : State) (a : Nat) (bs : List Byte) : (s.writeBytes a bs).pc = s.pc := by
  rw [State.writeBytes_eq]

/-- The word fetched where a run of at least two bytes was stored from I on is made of the first two. -/
theorem fetchWord_of_stored {s t : State} {bs : List Byte} (hlen : 2 ≤ bs.length)
    (hfit : s.i.toNat + bs.length ≤ Config.memSize) (hpc : t.pc = s.i)
    (hmem : ∀ c, t.readMem c = (s.writeBytes s.i.toNat bs).readMem c) :
    t.fetchWord = wordOfBytes (bs.getD 0 0) (bs.getD 1 0) := by
  rw [State.fetchWord, hpc, hmem, hmem, State.readMem_writeBytes hfit, State.readMem_writeBytes hfit,
    if_pos (by omega), if_pos (by omega), Nat.sub_self, Nat.add_sub_cancel_left]

theorem exec_ldMemVx_inside {s : State} {x : RegIx} (h : s.i.toNat + x.toNat < 4096) :
    exec (.ldMemVx x) s = .next ((s.writeBytes s.i.toNat (s.regsUpTo x)).setI (indexAfterTransfer x s)).advance :=
  guardRange_inside (.inr h)

theorem exec_ldBVx_inside {s : State} {x : RegIx} (h : s.i.toNat + 2 < 4096) :
    exec (.ldBVx x) s = .next (s.writeBytes s.i.toNat (bcdDigits (s.getV x))).advance :=
  guardRange_inside (.inr h)

/-- FX55 over the next two bytes: V0 and V1 are the next word. -/
theorem fetchWord_after_ldMemVx {s : State} {x : RegIx} (hi : s.i = s.pc + 2) (hx : 1 ≤ x.toNat)
    (h : s.i.toNat + x.toNat < 4096) :
    (((s.writeBytes s.i.toNat (s.regsUpTo x)).setI (indexAfterTransfer x s)).advance).fetchWord =
      wordOfBytes (s.getV 0) (s.getV 1) := by
  have h0 := s.getD_regsUpTo (x := x) (r := 0) (Nat.zero_le _)
  have h1 := s.getD_regsUpTo (x := x) (r := 1) hx
  rw [← h0, ← h1]
  exact fetchWord_of_stored (by simpa using hx) (by rw [State.length_regsUpTo]; exact h) (by simp [hi]) (fun _ => rfl)

/-- FX33 over the next two bytes: the hundreds and tens of VX are the next word. -/
theorem fetchWord_after_ldBVx {s : State} {x : RegIx} (hi : s.i = s.pc + 2) (h : s.i.toNat + 2 < 4096) :
    ((s.writeBytes s.i.toNat (bcdDigits (s.getV x))).advance).fetchWord =
      wordOfBytes ((bcdDigits (s.getV x)).getD 0 0) ((bcdDigits (s.getV x)).getD 1 0) :=
  fetchWord_of_stored (s := s) (Nat.le_succ 2) h (by simp [hi]) (fun _ => rfl)

end Sys2Proof.Machine

open Sys2Proof Sys2Proof.Machine

/-- Settles O10: what `readMem_load` and `load_frame` say of a load into the reset state, whose unlisted bytes are 0 from
0x50 on. -/
theorem loadPlacesImage : Obligations.LoadPlacesImage := by
  refine fun image => ⟨fun hfit => ?_, fun hlong => ?_⟩
  · have hl := load_of_le hfit State.reset
    refine ⟨_, hl, fun k hk => ?_, fun a hlo _ => ?_, fun a ha => ?_, load_frame hl, boot_of_load_ok hl⟩
    · rw [readMem_load hl, if_pos (by omega), Nat.add_sub_cancel_left, List.getD_eq_getElem _ _ hk]
    · rw [readMem_load hl, if_neg (by omega)]
      exact Memory.unlisted_of_ge (by omega)
    · rw [readMem_load hl, if_neg (by omega)]
  · have hl := load_of_gt hlong State.reset
    exact ⟨hl, boot_of_load_error hl true⟩

/-- Settles O43: the store completes, PC is then where it began, and the two bytes there are the first two stored. -/
theorem storedBytesAreFetched : Obligations.StoredBytesAreFetched := by
  refine fun s x hi => ⟨fun hx h => ?_, fun h => ?_⟩
  · exact ⟨_, exec_ldMemVx_inside h, fetchWord_after_ldMemVx hi hx h⟩
  · refine ⟨_, exec_ldBVx_inside h, ?_⟩
    have hlt := (s.getV x).isLt
    rw [fetchWord_after_ldBVx hi h, wordOfBytes_toNat]
    simp only [bcdDigits, List.getD_cons_zero, List.getD_cons_succ, BitVec.toNat_ofNat]
    omega

/-- Settles O54: the load writes memory alone, by canonical writes, and a running state holds no halt record. -/
theorem loadKeepsInvariant : Obligations.LoadKeepsInvariant :=
  fun _ _ _ h hr hl => h.load hr hl

/-- Settles O11: the word of two bytes as a number. -/
theorem fetchIsBigEndian : Obligations.FetchIsBigEndian := by
  intro s
  rw [State.fetchWord, wordOfBytes_toNat, Nat.mul_comm]

/-- Settles O42: both clauses are `State.readMem_writeMem`, at the written address and off it. -/
theorem byteReadsAsLastWritten : Obligations.ByteReadsAsLastWritten :=
  fun _ _ _ ha => ⟨by rw [State.readMem_writeMem ha, if_pos rfl], fun _ hc => by rw [State.readMem_writeMem ha, if_neg hc]⟩
end

section
/-! PROOFS of 30_encoding.md: decoder and encoder (O2, O3), the families (O4, O5), the Invalid words (O6), the opcode table
(O7), the words written out (O1), and the step that runs a fetched or a placed instruction (O12, O13). -/

namespace Sys2Proof

/-! ### The decoder on the words of the encoder (R65–R77) -/

theorem decodeWord_of_family0 {w : Word} (h : fieldOp w = 0x0) : decodeWord w = decode0 w := by
  simp [decodeWord, h]

theorem decodeWord_of_family8 {w : Word} (h : fieldOp w = 0x8) : decodeWord w = decode8 w := by
  simp [decodeWord, h]

theorem decodeWord_of_family9 {w : Word} (h : fieldOp w = 0x9) : decodeWord w = decode9 w := by
  simp [decodeWord, h]

theorem decodeWord_of_familyE {w : Word} (h : fieldOp w = 0xE) : decodeWord w = decodeE w := by
  simp [decodeWord, h]

theorem decodeWord_of_familyF {w : Word} (h : fieldOp w = 0xF) : decodeWord w = decodeF w := by
  simp [decodeWord, h]

/-- Every field of a format is read back from its word, and the fields select the instruction. -/
theorem decodeWord_encode {i : Instr} (h : i.wellFormed = true) : decodeWord (encode i) = .ok i := by
  cases i
  case cls | ret => decide
  case jpNnn | callNnn | ldINnn | jpV0Nnn => simp [encode, decodeWord]
  case seVxNn | sneVxNn | ldVxNn | addVxNn | rndVxNn => simp [encode, decodeWord]
  case seVxVy | drwVxVyN => simp [encode, decodeWord]
  case ldVxVy | orVxVy | andVxVy | xorVxVy | addVxVy | subVxVy | shrVx | subnVxVy | shlVx =>
    rw [encode, decodeWord_of_family8 (fieldOp_formatXYN ..)]
    simp [decode8]
  case sneVxVy x y n =>
    have hn : nibble9Allowed n = true := h
    rw [encode, decodeWord_of_family9 (fieldOp_formatXYN ..)]
    simp [decode9, hn]
  case skpVx | sknpVx =>
    rw [encode, decodeWord_of_familyE (fieldOp_formatXNN ..)]
    simp [decodeE]
  case ldVxDt | ldVxK | ldDtVx | ldStVx | addIVx | ldFVx | ldBVx | ldMemVx | ldVxMem =>
    rw [encode, decodeWord_of_familyF (fieldOp_formatXNN ..)]
    simp [decodeF]

theorem decodeWord_of_encode {w : Word} {i : Instr} (hw : encode i = w) (h : i.wellFormed = true) : decodeWord w = .ok i :=
  hw ▸ decodeWord_encode h

/-- Only family 9 has ill-formed terms, and its decoder makes none (R72). -/
theorem wellFormed_of_decodeWord {w : Word} {i : Instr} (h : decodeWord w = .ok i) : i.wellFormed = true := by
  cases i
  case sneVxVy x y n =>
    rw [← encode_of_decodeWord h, encode, decodeWord_of_family9 (fieldOp_formatXYN ..), decode9, fieldN_formatXYN] at h
    split at h
    · assumption
    · cases h
  all_goals rfl

/-! ### The words each family rejects -/

/-- The families every word of which is an instruction (R68, R70). -/
def totalFamilies : List Nibble := [0x1, 0x2, 0x3, 0x4, 0x5, 0x6, 0x7, 0xA, 0xB, 0xC, 0xD]

/-- The low nibbles that select no instruction of family 8 (R71). -/
def unusedNibbles8 : List Nibble := [0x8, 0x9, 0xA, 0xB, 0xC, 0xD, 0xF]

/-- The low bytes that select the instructions of family F (R74). -/
def usedBytesF : List Byte := [0x07, 0x0A, 0x15, 0x18, 0x1E, 0x29, 0x33, 0x55, 0x65]

theorem decodeWord_ok_of_family {w : Word} (h : fieldOp w ∈ totalFamilies) : ∃ i, decodeWord w = .ok i := by
  simp only [totalFamilies, List.mem_cons, List.not_mem_nil, or_false] at h
  rcases h with h | h | h | h | h | h | h | h | h | h | h <;> simp [decodeWord, h]

theorem decode0_eq_error {w : Word} : (∃ e, decode0 w = .error e) ↔ w ≠ 0x00E0 ∧ w ≠ 0x00EE := by
  simp only [decode0]
  split_ifs <;> simp_all

theorem decode8_eq_error {w : Word} : (∃ e, decode8 w = .error e) ↔ fieldN w ∈ unusedNibbles8 := by
  have hlt : (fieldN w).toNat < 16 := (fieldN w).isLt
  simp only [unusedNibbles8, List.mem_cons, List.not_mem_nil, or_false, ← BitVec.toNat_inj, BitVec.toNat_ofNat,
    BitVec.ofNat_eq_ofNat]
  unfold decode8
  split
  case h_10 =>
    simp only [imp_false] at *
    exact ⟨fun _ => by omega, fun _ => ⟨_, rfl⟩⟩
  all_goals simp [*]

theorem decode9_eq_error {w : Word} : (∃ e, decode9 w = .error e) ↔ fieldN w ≠ 0x0 := by
  simp only [decode9, nibble9Allowed, Config.strict9xy0]
  split_ifs <;> simp_all

theorem decodeE_eq_error {w : Word} : (∃ e, decodeE w = .error e) ↔ fieldNn w ≠ 0x9E ∧ fieldNn w ≠ 0xA1 := by
  simp only [decodeE]
  split_ifs <;> simp_all

theorem decodeF_eq_error {w : Word} : (∃ e, decodeF w = .error e) ↔ fieldNn w ∉ usedBytesF := by
  simp only [decodeF, usedBytesF]
  split_ifs <;> simp_all

theorem family_cases (op : Nibble) : op ∈ totalFamilies ∨ op = 0x0 ∨ op = 0x8 ∨ op = 0x9 ∨ op = 0xE ∨ op = 0xF := by
  decide +revert

/-- All that a word which decodes to no instruction can be. -/
theorem decodeWord_error_cases {w : Word} {e : DecodeError} (h : decodeWord w = .error e) :
    (fieldOp w = 0x0 ∧ w ≠ 0x00E0 ∧ w ≠ 0x00EE) ∨
    (fieldOp w = 0x8 ∧ fieldN w ∈ unusedNibbles8) ∨
    (fieldOp w = 0x9 ∧ fieldN w ≠ 0x0) ∨
    (fieldOp w = 0xE ∧ fieldNn w ≠ 0x9E ∧ fieldNn w ≠ 0xA1) ∨
    (fieldOp w = 0xF ∧ fieldNn w ∉ usedBytesF) := by
  rcases family_cases (fieldOp w) with hop | hop | hop | hop | hop | hop
  · obtain ⟨i, hi⟩ := decodeWord_ok_of_family hop
    cases hi.symm.trans h
  · rw [decodeWord_of_family0 hop] at h
    exact .inl ⟨hop, decode0_eq_error.1 ⟨e, h⟩⟩
  · rw [decodeWord_of_family8 hop] at h
    exact .inr (.inl ⟨hop, decode8_eq_error.1 ⟨e, h⟩⟩)
  · rw [decodeWord_of_family9 hop] at h
    exact .inr (.inr (.inl ⟨hop, decode9_eq_error.1 ⟨e, h⟩⟩))
  · rw [decodeWord_of_familyE hop] at h
    exact .inr (.inr (.inr (.inl ⟨hop, decodeE_eq_error.1 ⟨e, h⟩⟩)))
  · rw [decodeWord_of_familyF hop] at h
    exact .inr (.inr (.inr (.inr ⟨hop, decodeF_eq_error.1 ⟨e, h⟩⟩)))

/-! ### A word by its number -/

theorem ofNat_eq_formatA (base : Nat) (op : Nibble) (hop : op.toNat * 0x1000 = base) (nnn : Addr12) :
    BitVec.ofNat 16 (base + nnn.toNat) = formatA op nnn := by
  apply BitVec.eq_of_toNat_eq
  rw [formatA_toNat, BitVec.toNat_ofNat]
  omega

theorem ofNat_eq_formatXNN (base : Nat) (op : Nibble) (hop : op.toNat * 0x1000 = base) (x : RegIx) (nn : Byte) :
    BitVec.ofNat 16 (base + 0x100 * x.toNat + nn.toNat) = formatXNN op x nn := by
  apply BitVec.eq_of_toNat_eq
  rw [formatXNN_toNat, BitVec.toNat_ofNat]
  omega

theorem ofNat_eq_formatXYN (base : Nat) (op : Nibble) (hop : op.toNat * 0x1000 = base) (x y : RegIx) (n : Nibble) :
    BitVec.ofNat 16 (base + 0x100 * x.toNat + 0x10 * y.toNat + n.toNat) = formatXYN op x y n := by
  apply BitVec.eq_of_toNat_eq
  rw [formatXYN_toNat, BitVec.toNat_ofNat]
  omega

/-! The k-th word of family f. -/

theorem fieldOp_ofNat (f : Nat) {k : Nat} (hk : k < 0x1000) :
    fieldOp (BitVec.ofNat 16 (0x1000 * f + k)) = BitVec.ofNat 4 f := by
  apply BitVec.eq_of_toNat_eq
  rw [fieldOp_toNat, BitVec.toNat_ofNat, BitVec.toNat_ofNat]
  omega

theorem fieldN_ofNat_eq_iff (f k : Nat) (n : Nibble) :
    fieldN (BitVec.ofNat 16 (0x1000 * f + k)) = n ↔ k % 16 = n.toNat := by
  rw [← BitVec.toNat_inj, fieldN_toNat, BitVec.toNat_ofNat]
  omega

theorem fieldNn_ofNat_eq_iff (f k : Nat) (nn : Byte) :
    fieldNn (BitVec.ofNat 16 (0x1000 * f + k)) = nn ↔ k % 256 = nn.toNat := by
  rw [← BitVec.toNat_inj, fieldNn_toNat, BitVec.toNat_ofNat]
  omega

/-! ### Counting the Invalid words (R76) -/

/-- A predicate of the residue, counted over n whole periods. -/
theorem countP_range_mod (p : Nat → Bool) (m n : Nat) :
    (List.range (n * m)).countP (fun k => p (k % m)) = n * (List.range m).countP p := by
  induction n with
  | zero => simp
  | succ n ih =>
    have hlast : (List.range m).countP ((fun k => p (k % m)) ∘ fun j => n * m + j) = (List.range m).countP p :=
      List.countP_congr fun j hj => by simp [Nat.mod_eq_of_lt (List.mem_range.1 hj)]
    rw [Nat.add_one_mul, List.range_add, List.countP_append, List.countP_map, ih, hlast, Nat.add_one_mul]

/-- The numbers below n that a list leaves out. -/
theorem countP_range_notMem {n : Nat} {l : List Nat} (hnd : l.Nodup) (hlt : ∀ j ∈ l, j < n) :
    (List.range n).countP (fun k => k ∉ l) = n - l.length := by
  have hsub : l.toFinset ⊆ Finset.range n := fun j hj => Finset.mem_range.2 (hlt j (List.mem_toFinset.1 hj))
  have hfilter : (Finset.range n).filter (fun k => k ∉ l) = Finset.range n \ l.toFinset := by
    ext k
    simp
  calc (List.range n).countP (fun k => k ∉ l)
      = ((Finset.range n).filter (fun k => k ∉ l)).card := Nat.count_eq_card_filter_range _ n
    _ = n - l.length := by
      rw [hfilter, Finset.card_sdiff_of_subset hsub, Finset.card_range, List.toFinset_card_of_nodup hnd]

theorem isNone_toOption {ε α : Type} {r : Except ε α} : r.toOption.isNone = true ↔ ∃ e, r = .error e := by
  cases r <;> simp [Except.toOption]

/-- The k-th word of family f decodes to no instruction. -/
def isInvalidAt (f k : Nat) : Bool := (decodeWord (BitVec.ofNat 16 (0x1000 * f + k))).toOption.isNone

/-- How many words of family f decode to no instruction. -/
def invalidCount (f : Nat) : Nat := (List.range 0x1000).countP (isInvalidAt f)

/-- A family in which a residue decides: the words whose residue is not in l are the Invalid ones. -/
theorem invalidCount_of_residues {f m n : Nat} (l : List Nat) (hmn : n * m = 0x1000) (hnd : l.Nodup) (hlt : ∀ j ∈ l, j < m)
    (h : ∀ k < 0x1000, isInvalidAt f k = true ↔ k % m ∉ l) : invalidCount f = n * (m - l.length) := by
  rw [← countP_range_notMem hnd hlt, ← countP_range_mod, hmn]
  exact List.countP_congr fun k hk => (h k (List.mem_range.1 hk)).trans decide_eq_true_iff.symm

theorem invalidCount_of_family {f : Nat} (h : BitVec.ofNat 4 f ∈ totalFamilies) : invalidCount f = 0 := by
  refine List.countP_eq_zero.2 fun k hk => ?_
  obtain ⟨i, hi⟩ := decodeWord_ok_of_family ((fieldOp_ofNat f (List.mem_range.1 hk)).symm ▸ h)
  simp [isInvalidAt, hi, Except.toOption]

theorem invalidCount_family0 : invalidCount 0x0 = 4094 := by
  refine invalidCount_of_residues (m := 0x1000) (n := 1) [0xE0, 0xEE] rfl (by decide) (by decide) fun k hk => ?_
  rw [isInvalidAt, isNone_toOption, decodeWord_of_family0 (fieldOp_ofNat _ hk), decode0_eq_error]
  simp only [List.mem_cons, List.not_mem_nil, or_false, not_or]
  bv_omega

theorem invalidCount_family8 : invalidCount 0x8 = 1792 := by
  refine invalidCount_of_residues (m := 16) (n := 256) [0, 1, 2, 3, 4, 5, 6, 7, 0xE] rfl (by decide) (by decide)
    fun k hk => ?_
  rw [isInvalidAt, isNone_toOption, decodeWord_of_family8 (fieldOp_ofNat _ hk), decode8_eq_error]
  simp only [unusedNibbles8, List.mem_cons, List.not_mem_nil, or_false, fieldN_ofNat_eq_iff]
  bv_omega

theorem invalidCount_family9 : invalidCount 0x9 = 3840 := by
  refine invalidCount_of_residues (m := 16) (n := 256) [0] rfl (by decide) (by decide) fun k hk => ?_
  rw [isInvalidAt, isNone_toOption, decodeWord_of_family9 (fieldOp_ofNat _ hk), decode9_eq_error, List.mem_singleton]
  exact not_congr (fieldN_ofNat_eq_iff ..)

theorem invalidCount_familyE : invalidCount 0xE = 4064 := by
  refine invalidCount_of_residues (m := 256) (n := 16) [0x9E, 0xA1] rfl (by decide) (by decide) fun k hk => ?_
  rw [isInvalidAt, isNone_toOption, decodeWord_of_familyE (fieldOp_ofNat _ hk), decodeE_eq_error]
  simp only [ne_eq, List.mem_cons, List.not_mem_nil, or_false, not_or, fieldNn_ofNat_eq_iff]
  rfl

theorem invalidCount_familyF : invalidCount 0xF = 3952 := by
  refine invalidCount_of_residues (m := 256) (n := 16) [0x07, 0x0A, 0x15, 0x18, 0x1E, 0x29, 0x33, 0x55, 0x65] rfl (by decide)
    (by decide) fun k hk => ?_
  rw [isInvalidAt, isNone_toOption, decodeWord_of_familyF (fieldOp_ofNat _ hk), decodeF_eq_error]
  simp only [usedBytesF, List.mem_cons, List.not_mem_nil, or_false, fieldNn_ofNat_eq_iff]
  rfl

theorem map_invalidCount :
    (List.range 16).map invalidCount = [4094, 0, 0, 0, 0, 0, 0, 0, 1792, 3840, 0, 0, 0, 0, 4064, 3952] := by
  have h : List.range 16 = [0x0, 0x1, 0x2, 0x3, 0x4, 0x5, 0x6, 0x7, 0x8, 0x9, 0xA, 0xB, 0xC, 0xD, 0xE, 0xF] := rfl
  have htotal : ∀ f ∈ [0x1, 0x2, 0x3, 0x4, 0x5, 0x6, 0x7, 0xA, 0xB, 0xC, 0xD], invalidCount f = 0 := fun f hf =>
    invalidCount_of_family (by revert f; decide)
  simp [h, invalidCount_family0, invalidCount_family8, invalidCount_family9, invalidCount_familyE, invalidCount_familyF, htotal]

/-! ### The rows of the opcode table (R77) -/

theorem covered_of_wellFormed (i : Instr) : Laws.Covered.Statement i := by
  cases i
  exacts [Laws.Covered.cls, Laws.Covered.ret, Laws.Covered.jpNnn _, Laws.Covered.callNnn _, Laws.Covered.seVxNn _ _,
    Laws.Covered.sneVxNn _ _, Laws.Covered.seVxVy _ _ _, Laws.Covered.ldVxNn _ _, Laws.Covered.addVxNn _ _,
    Laws.Covered.ldVxVy _ _, Laws.Covered.orVxVy _ _, Laws.Covered.andVxVy _ _, Laws.Covered.xorVxVy _ _,
    Laws.Covered.addVxVy _ _, Laws.Covered.subVxVy _ _, Laws.Covered.shrVx _ _, Laws.Covered.subnVxVy _ _,
    Laws.Covered.shlVx _ _, Laws.Covered.sneVxVy _ _ _, Laws.Covered.ldINnn _, Laws.Covered.jpV0Nnn _,
    Laws.Covered.rndVxNn _ _, Laws.Covered.drwVxVyN _ _ _, Laws.Covered.skpVx _, Laws.Covered.sknpVx _,
    Laws.Covered.ldVxDt _, Laws.Covered.ldVxK _, Laws.Covered.ldDtVx _, Laws.Covered.ldStVx _, Laws.Covered.addIVx _,
    Laws.Covered.ldFVx _, Laws.Covered.ldBVx _, Laws.Covered.ldMemVx _, Laws.Covered.ldVxMem _]

theorem OpcodeRow.covers_iff {r : OpcodeRow} {w : Word} : r.covers w = true ↔ w &&& r.mask = r.pattern := by
  simp [OpcodeRow.covers]

/-- A field the mask holds in full is the pattern's own in every word the row covers. -/
theorem OpcodeRow.extract_of_covers {r : OpcodeRow} {w : Word} {lo len : Nat} (h : r.covers w = true)
    (hm : r.mask.extractLsb' lo len = BitVec.allOnes len) : w.extractLsb' lo len = r.pattern.extractLsb' lo len := by
  rw [← OpcodeRow.covers_iff.1 h, BitVec.extractLsb'_and, hm, BitVec.and_allOnes]

/-- Rows whose patterns differ on the bits both masks hold cover no word together. -/
theorem OpcodeRow.not_covers_both {r q : OpcodeRow} (h : r.pattern &&& q.mask ≠ q.pattern &&& r.mask) (w : Word) :
    ¬(r.covers w = true ∧ q.covers w = true) := by
  rintro ⟨hr, hq⟩
  rw [OpcodeRow.covers_iff] at hr hq
  rw [← hr, ← hq, BitVec.and_assoc, BitVec.and_assoc, BitVec.and_comm r.mask] at h
  exact h rfl

theorem opcodeRows_differ : opcodeRows.Pairwise fun r q => r.pattern &&& q.mask ≠ q.pattern &&& r.mask := by decide

/-! Which fields the rows of a family hold, and at what values. -/

theorem opcodeRows_op : ∀ r ∈ opcodeRows, fieldOp r.mask = 0xF := by decide

theorem opcodeRows_family0 : ∀ r ∈ opcodeRows, fieldOp r.pattern = 0x0 →
    r.mask = 0xFFFF ∧ (r.pattern = 0x00E0 ∨ r.pattern = 0x00EE) := by decide

theorem opcodeRows_family8 : ∀ r ∈ opcodeRows, fieldOp r.pattern = 0x8 →
    fieldN r.mask = 0xF ∧ fieldN r.pattern ∉ unusedNibbles8 := by decide

theorem opcodeRows_family9 : ∀ r ∈ opcodeRows, fieldOp r.pattern = 0x9 →
    fieldN r.mask = 0xF ∧ fieldN r.pattern = 0x0 := by decide

theorem opcodeRows_familyE : ∀ r ∈ opcodeRows, fieldOp r.pattern = 0xE →
    fieldNn r.mask = 0xFF ∧ (fieldNn r.pattern = 0x9E ∨ fieldNn r.pattern = 0xA1) := by decide

theorem opcodeRows_familyF : ∀ r ∈ opcodeRows, fieldOp r.pattern = 0xF →
    fieldNn r.mask = 0xFF ∧ fieldNn r.pattern ∈ usedBytesF := by decide

/-- A row that covered an Invalid word would hold its selecting field at a value its family rejects. -/
theorem not_covers_of_decodeWord_error {w : Word} {e : DecodeError} (h : decodeWord w = .error e) {r : OpcodeRow}
    (hr : r ∈ opcodeRows) : ¬r.covers w = true := by
  intro hc
  have hop : fieldOp w = fieldOp r.pattern := OpcodeRow.extract_of_covers hc (opcodeRows_op r hr)
  rcases decodeWord_error_cases h with ⟨hf, h0, h1⟩ | ⟨hf, hn⟩ | ⟨hf, hn⟩ | ⟨hf, h0, h1⟩ | ⟨hf, hn⟩ <;> rw [hop] at hf
  · obtain ⟨hm, hp⟩ := opcodeRows_family0 r hr hf
    have hw : w = r.pattern := by rw [← OpcodeRow.covers_iff.1 hc, hm]; exact BitVec.and_allOnes.symm
    rw [← hw] at hp
    exact hp.elim h0 h1
  · obtain ⟨hm, hp⟩ := opcodeRows_family8 r hr hf
    have hw : fieldN w = fieldN r.pattern := OpcodeRow.extract_of_covers hc hm
    exact hp (hw ▸ hn)
  · obtain ⟨hm, hp⟩ := opcodeRows_family9 r hr hf
    have hw : fieldN w = fieldN r.pattern := OpcodeRow.extract_of_covers hc hm
    exact hn (hw.trans hp)
  · obtain ⟨hm, hp⟩ := opcodeRows_familyE r hr hf
    have hw : fieldNn w = fieldNn r.pattern := OpcodeRow.extract_of_covers hc hm
    rw [← hw] at hp
    exact hp.elim h0 h1
  · obtain ⟨hm, hp⟩ := opcodeRows_familyF r hr hf
    have hw : fieldNn w = fieldNn r.pattern := OpcodeRow.extract_of_covers hc hm
    exact hn (hw ▸ hp)

end Sys2Proof

namespace Sys2Proof.Machine

/-! ### The step that runs an instruction (R78, R142) -/

theorem clockBookkeeping_eq (e : Nat) (t : State) :
    clockBookkeeping e t = if t.status = .running then sync e t else t := by
  split
  · exact clockBookkeeping_running ‹_›
  · exact clockBookkeeping_halted ‹_›

theorem instructionStep_of_decode {s : State} {i : Instr} (hpc : s.pc.toNat < 0xFFF) (hd : decodeWord s.fetchWord = .ok i) :
    instructionStep s = exec i s := by
  have hin : s.fetchInRange = true := decide_eq_true (Nat.succ_lt_succ hpc)
  rw [instructionStep, if_pos hin, hd]

/-! ### A placed word (log 10) -/

theorem State.fetchablePc_of_lt {s : State} (h : s.pc.toNat < 0xFFF) : s.fetchablePc = s.pc :=
  if_pos (decide_eq_true (Nat.succ_lt_succ h))

theorem State.fetchablePc_of_ge {s : State} (h : 0xFFF ≤ s.pc.toNat) : s.fetchablePc = 0x200 :=
  if_neg (by rw [State.fetchInRange, decide_eq_true_iff, Config.memSize]; omega)

theorem State.fetchablePc_lt (s : State) : s.fetchablePc.toNat < 0xFFF := by
  rcases lt_or_ge s.pc.toNat 0xFFF with h | h
  · rwa [fetchablePc_of_lt h]
  · rw [fetchablePc_of_ge h]
    decide

theorem readMem_placeWord (s : State) (w : Word) (a : Nat) :
    (s.placeWord w).readMem a =
      if a = s.fetchablePc.toNat + 1 then lowByte w else if a = s.fetchablePc.toNat then highByte w else s.readMem a := by
  have hpc := s.fetchablePc_lt
  simp only [State.readMem, State.placeWord]
  rw [Memory.read_write (by simp only [Config.memSize]; omega), Memory.read_write (by simp only [Config.memSize]; omega)]

@[simp] theorem fetchWord_placeWord (s : State) (w : Word) : (s.placeWord w).fetchWord = w := by
  have hpc : (s.placeWord w).pc = s.fetchablePc := rfl
  rw [State.fetchWord, hpc, readMem_placeWord, readMem_placeWord, if_neg (by omega), if_pos rfl, if_pos rfl,
    wordOfBytes_highByte_lowByte]

theorem quit_nextInput_placeWord (s : State) (w : Word) : (nextInput (s.placeWord w)).quit = false := by
  have hin : (s.placeWord w).inputs = withoutQuit s.inputs := rfl
  rw [nextInput, hin]
  cases s.inputs <;> rfl

@[simp] theorem length_withoutQuit (l : List HostInput) : (withoutQuit l).length = l.length := by
  cases l <;> rfl

@[simp] theorem tail_withoutQuit (l : List HostInput) : (withoutQuit l).tail = l.tail := by
  cases l <;> rfl

end Sys2Proof.Machine

open Sys2Proof Sys2Proof.Machine

/-- Settles O2, by the fields of each instruction's format. -/
theorem decodeOfEncode : Obligations.DecodeOfEncode :=
  fun _ => decodeWord_encode

/-- Settles O3: the decoder keeps every field of the word, and makes no ill-formed term. -/
theorem encodeOfDecode : Obligations.EncodeOfDecode :=
  fun _ _ h => ⟨encode_of_decodeWord h, wellFormed_of_decodeWord h⟩

/-- Settles O4: a word with an instruction is that instruction's word, and the others are those its family rejects. -/
theorem familiesWithSubOpcodesDecode : Obligations.FamiliesWithSubOpcodesDecode := by
  refine ⟨fun k hk => ?_, fun x y n => ?_, fun x y n w hw => ?_, fun x nn w hw => ?_, fun x nn w hw => ?_⟩
  · refine ⟨?_, ?_, fun h0 h1 => ?invalid⟩
    case invalid =>
      have hop : fieldOp (BitVec.ofNat 16 k) = 0x0 := by simpa using fieldOp_ofNat 0 hk
      rw [decodeWord_of_family0 hop, decode0_eq_error]
      bv_omega
    all_goals
      rintro rfl
      exact decodeWord_of_encode rfl rfl
  · exact decodeWord_of_encode (ofNat_eq_formatXYN 0x5000 0x5 rfl x y n).symm rfl
  · rw [ofNat_eq_formatXYN 0x8000 0x8 rfl] at hw
    subst hw
    refine ⟨?_, ?_, ?_, ?_, ?_, ?_, ?_, ?_, ?_, fun hn => ?invalid⟩
    case invalid =>
      rw [decodeWord_of_family8 (fieldOp_formatXYN ..), decode8_eq_error, fieldN_formatXYN]
      exact hn
    all_goals
      rintro rfl
      exact decodeWord_of_encode rfl rfl
  · rw [ofNat_eq_formatXNN 0xE000 0xE rfl] at hw
    subst hw
    refine ⟨?_, ?_, fun h0 h1 => ?invalid⟩
    case invalid =>
      rw [decodeWord_of_familyE (fieldOp_formatXNN ..), decodeE_eq_error, fieldNn_formatXNN]
      exact ⟨h0, h1⟩
    all_goals
      rintro rfl
      exact decodeWord_of_encode rfl rfl
  · rw [ofNat_eq_formatXNN 0xF000 0xF rfl] at hw
    subst hw
    refine ⟨?_, ?_, ?_, ?_, ?_, ?_, ?_, ?_, ?_, fun hn => ?invalid⟩
    case invalid =>
      rw [decodeWord_of_familyF (fieldOp_formatXNN ..), decodeF_eq_error, fieldNn_formatXNN]
      exact hn
    all_goals
      rintro rfl
      exact decodeWord_of_encode rfl rfl

/-- Settles O5: each word is an instruction's word, but for those of family 9 with a nonzero low nibble. -/
theorem familiesWithoutSubOpcodesDecode : Obligations.FamiliesWithoutSubOpcodesDecode := by
  refine ⟨fun nnn => ⟨?_, ?_, ?_, ?_⟩, fun x nn => ⟨?_, ?_, ?_, ?_, ?_⟩, fun x y n => ⟨?_, ?_, fun hn => ?_⟩⟩
  · exact decodeWord_of_encode (ofNat_eq_formatA 0x1000 0x1 rfl nnn).symm rfl
  · exact decodeWord_of_encode (ofNat_eq_formatA 0x2000 0x2 rfl nnn).symm rfl
  · exact decodeWord_of_encode (ofNat_eq_formatA 0xA000 0xA rfl nnn).symm rfl
  · exact decodeWord_of_encode (ofNat_eq_formatA 0xB000 0xB rfl nnn).symm rfl
  · exact decodeWord_of_encode (ofNat_eq_formatXNN 0x3000 0x3 rfl x nn).symm rfl
  · exact decodeWord_of_encode (ofNat_eq_formatXNN 0x4000 0x4 rfl x nn).symm rfl
  · exact decodeWord_of_encode (ofNat_eq_formatXNN 0x6000 0x6 rfl x nn).symm rfl
  · exact decodeWord_of_encode (ofNat_eq_formatXNN 0x7000 0x7 rfl x nn).symm rfl
  · exact decodeWord_of_encode (ofNat_eq_formatXNN 0xC000 0xC rfl x nn).symm rfl
  · exact decodeWord_of_encode (ofNat_eq_formatXYN 0xD000 0xD rfl x y n).symm rfl
  · rintro rfl
    exact decodeWord_of_encode (ofNat_eq_formatXYN 0x9000 0x9 rfl x y 0).symm rfl
  · rw [ofNat_eq_formatXYN 0x9000 0x9 rfl, decodeWord_of_family9 (fieldOp_formatXYN ..), decode9_eq_error, fieldN_formatXYN]
    exact hn

/-- Settles O6: within a family the low nibble, the low byte or the whole word decides, and each is counted by residue. -/
theorem invalidWordCounts : Obligations.InvalidWordCounts := by
  refine ⟨fun f => ?_, congrArg List.sum map_invalidCount⟩
  have hmap : ((List.range 16).map invalidCount).getD f.val 0 = invalidCount f := by simp
  refine hmap.symm.trans ?_
  rw [map_invalidCount]
  fin_cases f <;> rfl

/-- Settles O7: a word that decodes is the word of a well-formed instruction, which a row covers; no row covers an
Invalid word; and any two rows differ on the bits both hold. -/
theorem decodeAgreesWithOpcodeTable : Obligations.DecodeAgreesWithOpcodeTable := by
  refine ⟨fun w => ⟨fun ⟨i, hi⟩ => ?_, fun ⟨r, hr, hc⟩ => ?_⟩, fun w =>
    opcodeRows_differ.imp fun h => OpcodeRow.not_covers_both h w⟩
  · simpa only [encode_of_decodeWord hi] using covered_of_wellFormed i (wellFormed_of_decodeWord hi)
  · cases hd : decodeWord w with
    | ok i => exact ⟨i, rfl⟩
    | error e => exact absurd hc (not_covers_of_decodeWord_error hd hr)

/-- Settles O12: the poll leaves PC and the fetched word, so the instruction step after it is `exec` of i. -/
theorem stepRunsDecodedInstruction : Obligations.StepRunsDecodedInstruction := by
  intro s i hr hq hpc hd
  have hi : instructionStep (poll s) = exec i (poll s) := instructionStep_of_decode hpc hd
  rw [step, loopIteration, if_pos (Status.isRunning_iff.2 hr), hq, hi]
  cases exec i (poll s) with
  | next t => exact congrArg Host.Outcome.next (clockBookkeeping_eq _ t)
  | fault r => exact nomatch r
  | refused r => rfl

/-- Settles O13: a placed word meets every hypothesis of `stepRunsDecodedInstruction`; the frame is `State.placeWord`
read field by field. -/
theorem placedInstructionRunsNext : Obligations.PlacedInstructionRunsNext := by
  intro s nbits w i hi
  have hd : decodeWord (s.withFetchWord nbits w).fetchWord = .ok i := by
    rw [State.withFetchWord, fetchWord_placeWord]
    exact decodeTableWord_eq_some.1 hi
  refine ⟨?_, State.fetchablePc_of_lt, State.fetchablePc_of_ge, fun a h0 h1 => ?_, rfl, length_withoutQuit _,
    tail_withoutQuit _, fun h rest hin => by rw [hin]; rfl⟩
  · exact stepRunsDecodedInstruction _ i rfl (quit_nextInput_placeWord ..) s.fetchablePc_lt hd
  · exact (readMem_placeWord s _ a).trans ((if_neg h1).trans (if_neg h0))

/-- Settles O1: nine closed words, each computed by the decoder. -/
theorem sampleWordsDecode : Obligations.SampleWordsDecode := by
  unfold Obligations.SampleWordsDecode
  decide
end

section
/-! PROOFS of 40_flow.md: RET (O22), CALL (O24) and the two in a row (O25), CLS (O21), the jumps (O23) and the register and
immediate skips (O26). -/

namespace Sys2Proof.Machine

/-! ### CALL and RET: the completion and the halt of each (R84, R86, R125, R126) -/

theorem exec_ret_of_sp_pos {s : State} {j : Fin 16} (h : s.sp.val = j.val + 1) :
    exec .ret s = .next { s with sp := j.castSucc, pc := s.stack[j.val] + 2 } := by
  rcases s.pop_cases with ⟨k, hk, e⟩ | ⟨h0, -⟩
  · obtain rfl : j = k := Fin.ext (by omega)
    simp only [exec, execRet, e]
    rfl
  · omega

theorem exec_ret_of_sp_zero {s : State} (h : s.sp.val = 0) :
    exec .ret s = .next (HaltedWith s .stackUnderflow 0x00EE 0) := by
  rcases s.pop_cases with ⟨k, hk, -⟩ | ⟨-, e⟩
  · omega
  · simp only [exec, execRet, e]
    rfl

theorem exec_callNnn_of_sp_lt {s : State} {j : Fin 16} (h : s.sp.val = j.val) (nnn : Addr12) :
    exec (.callNnn nnn) s = .next { s with stack := s.stack.set j.val s.pc, sp := j.succ, pc := addressOf nnn } := by
  rcases s.push_cases s.pc with ⟨hlt, e⟩ | ⟨hfull, -⟩
  · obtain rfl : j = ⟨s.sp.val, hlt⟩ := Fin.ext h.symm
    simp only [exec, execCallNnn, e]
    rfl
  · omega

theorem exec_callNnn_of_sp_full {s : State} (h : s.sp.val = 16) (nnn : Addr12) :
    exec (.callNnn nnn) s = .next (HaltedWith s .stackOverflow (encode (.callNnn nnn)) 16) := by
  rcases s.push_cases s.pc with ⟨hlt, -⟩ | ⟨-, e⟩
  · omega
  · simp only [exec, execCallNnn, e]
    rfl

/-- A stack entry is an address a CALL was fetched from, so the return address does not wrap (R84). -/
theorem State.Inv.toNat_stack_add_two {s : State} (h : s.Inv) (j : Fin 16) :
    (s.stack[j.val] + 2).toNat = (s.stack[j.val]).toNat + 2 ∧ (s.stack[j.val] + 2).toNat ≤ 0x1001 := by
  have hj := h.stackBound j
  simp only [Config.memSize] at hj
  bv_omega

/-! ### Jump targets (R66, R104) -/

@[simp] theorem addressOf_toNat (nnn : Addr12) : (addressOf nnn).toNat = nnn.toNat := by
  simp only [addressOf]
  bv_omega

theorem addressOf_add_byte_toNat (nnn : Addr12) (b : Byte) :
    (addressOf nnn + b.setWidth 16).toNat = nnn.toNat + b.toNat := by
  simp only [addressOf]
  bv_omega

/-- BNNN adds V0 on this hardware (JUMP_OFFSET_USES_VX is false). -/
theorem exec_jpV0Nnn (nnn : Addr12) (s : State) :
    exec (.jpV0Nnn nnn) s = .next (s.jump (addressOf nnn + (s.getV 0).setWidth 16)) := rfl

theorem State.changesOnlyPc_jump (s : State) (w : Word) : ChangesOnlyPc s (s.jump w) := ⟨rfl, fun _ => rfl⟩

/-! ### Skips (R79) -/

theorem State.changesOnlyPc_skipIf (s : State) (c : Bool) : ChangesOnlyPc s (s.skipIf c) := ⟨rfl, fun _ => rfl⟩

theorem State.skipIf_pc_of_iff {c : Bool} {P : Prop} [Decidable P] (h : c = true ↔ P) (s : State) :
    (s.skipIf c).pc = s.pc + (if P then 4 else 2) := by
  simp only [State.skipIf_pc, h]

/-! ### CLS (R83) -/

/-- CLS gives the screen of the reset state. -/
theorem exec_cls (s : State) : exec .cls s = .next { s with fb := State.reset.fb, pc := s.pc + 2 } := rfl

end Sys2Proof.Machine

open Sys2Proof Sys2Proof.Machine

/-- Settles O22: RET with an empty stack halts; with an entry it goes to that entry plus 2, which the invariant bounds. -/
theorem retPopsOrUnderflows : Obligations.RetPopsOrUnderflows :=
  ⟨fun _ => exec_ret_of_sp_zero, fun _ j h =>
    ⟨_, exec_ret_of_sp_pos h, rfl, rfl, fun hinv => hinv.toNat_stack_add_two j, rfl, fun _ => rfl⟩⟩

/-- Settles O24: CALL with a full stack halts; with room it sets the one entry at SP. -/
theorem callPushesOrOverflows : Obligations.CallPushesOrOverflows := by
  refine ⟨fun s nnn h => exec_callNnn_of_sp_full h nnn, fun s nnn j h =>
    ⟨_, exec_callNnn_of_sp_lt h nnn, ?_, fun k hk => ?_, rfl, addressOf_toNat nnn, rfl, fun _ => rfl⟩⟩
  · exact Vector.getElem_set_self j.isLt
  · exact Vector.getElem_set_ne j.isLt k.isLt (Fin.val_ne_of_ne hk.symm)

/-- Settles O25: the RET finds SP one above the entry that the CALL set, and pops that entry. -/
theorem callThenRetRoundTrip : Obligations.CallThenRetRoundTrip := by
  intro s nnn h
  refine ⟨_, _, exec_callNnn_of_sp_lt (j := ⟨s.sp.val, h⟩) rfl nnn, exec_ret_of_sp_pos (j := ⟨s.sp.val, h⟩) rfl, ?_, rfl,
    fun k => ?_, rfl⟩
  · exact congrArg (· + 2) (Vector.getElem_set_self h)
  · simp only [Vector.getElem_set, eq_comm]

/-- Settles O21: the screen of the reset state is clear. -/
theorem clsClearsTheScreen : Obligations.ClsClearsTheScreen :=
  fun s => ⟨_, exec_cls s, pixel_reset, rfl, fun _ => rfl⟩

/-- Settles O23: both are jumps, to targets that fit in 16 bits. -/
theorem jumpsSetPc : Obligations.JumpsSetPc :=
  fun s nnn => ⟨⟨_, rfl, addressOf_toNat nnn, s.changesOnlyPc_jump _⟩,
    ⟨_, exec_jpV0Nnn nnn s, addressOf_add_byte_toNat nnn (s.getV 0), s.changesOnlyPc_jump _⟩⟩

/-- Settles O26: each of the four is a `State.skipIf` on its comparison; the strict family 9 is the last clause of O5. -/
theorem skipsCompareRegisters : Obligations.SkipsCompareRegisters := by
  intro s x y nn n
  obtain ⟨-, -, hfamilies⟩ := familiesWithoutSubOpcodesDecode
  obtain ⟨-, -, hinvalid⟩ := hfamilies x y n
  refine ⟨⟨_, rfl, ?_, s.changesOnlyPc_skipIf _⟩, ⟨_, rfl, ?_, s.changesOnlyPc_skipIf _⟩,
    ⟨_, rfl, ?_, s.changesOnlyPc_skipIf _⟩, ⟨_, rfl, ?_, s.changesOnlyPc_skipIf _⟩, hinvalid⟩
  · exact s.skipIf_pc_of_iff beq_iff_eq
  · exact s.skipIf_pc_of_iff bne_iff_ne
  · exact s.skipIf_pc_of_iff beq_iff_eq
  · exact s.skipIf_pc_of_iff bne_iff_ne
end

section
/-! PROOFS of 41_alu.md: the immediate forms (O27), copy and logic (O28), ADD (O29), SUB and SUBN (O30) and the shifts (O31).
How a result, and a result with its flag, is written is said once; each instruction then owes the value of both. -/

namespace Sys2Proof.Machine

/-! ### How a result and its flag are written (R22, R91) -/

theorem changesOnlyVPc_result (s : State) (x : RegIx) (b : Byte) : ChangesOnlyVPc s (s.setV x b).advance :=
  ⟨rfl, fun _ => rfl⟩

theorem changesOnlyVPc_resultAndFlag (s : State) (x : RegIx) (b : Byte) (f : Bool) :
    ChangesOnlyVPc s ((s.setV x b).setFlag f).advance :=
  ⟨rfl, fun _ => rfl⟩

/-- A result alone: VF is a register like every other. -/
theorem writeResult_completes (s : State) (x : RegIx) (b : Byte) :
    ∃ t, writeResult x b s = .next t ∧ t.getV x = b ∧ (∀ r, r ≠ x → t.getV r = s.getV r) ∧ t.pc = s.pc + 2 ∧
      ChangesOnlyVPc s t :=
  ⟨_, writeResult_eq x b s, s.getV_setV_self x b, fun _ hr => State.getV_setV_of_ne hr, rfl, changesOnlyVPc_result s x b⟩

/-- A result `b`, as the number `n`, and a flag `f`, as the byte `c`: the flag wins when VX is VF. -/
theorem writeResultAndFlag_completes (s : State) (x : RegIx) {b c : Byte} {f : Bool} {n : Nat} (hb : b.toNat = n)
    (hf : (if f then 1 else 0) = c) :
    ∃ t, writeResultAndFlag x b f s = .next t ∧ (x ≠ 0xF → (t.getV x).toNat = n) ∧ t.getV 0xF = c ∧
      (∀ r, r ≠ x → r ≠ 0xF → t.getV r = s.getV r) ∧ t.pc = s.pc + 2 ∧ ChangesOnlyVPc s t := by
  refine ⟨_, writeResultAndFlag_eq x b f s, fun hx => ?_, ?_, fun r hr hF => ?_, rfl, changesOnlyVPc_resultAndFlag s x b f⟩
  · rw [getV_resultAndFlag, if_neg hx, if_pos rfl, hb]
  · rw [getV_resultAndFlag, if_pos rfl, hf]
  · rw [getV_resultAndFlag, if_neg hF, if_neg hr]

/-- A result and a flag that is a bit moved out, as the number `m`. -/
theorem writeResultAndFlag_completes_bit (s : State) (x : RegIx) {b : Byte} {f : Bool} {n m : Nat} (hb : b.toNat = n)
    (hf : f.toNat = m) :
    ∃ t, writeResultAndFlag x b f s = .next t ∧ (x ≠ 0xF → (t.getV x).toNat = n) ∧ (t.getV 0xF).toNat = m ∧
      (∀ r, r ≠ x → r ≠ 0xF → t.getV r = s.getV r) ∧ t.pc = s.pc + 2 ∧ ChangesOnlyVPc s t := by
  obtain ⟨t, ht, hx, hflag, hrest⟩ := writeResultAndFlag_completes s x (f := f) hb rfl
  refine ⟨t, ht, hx, ?_, hrest⟩
  rw [hflag, ← hf]
  cases f <;> rfl

/-! ### The results and the flags as numbers (R98–R102) -/

theorem carryFlag_value (a b : Byte) :
    (if carryFlag a b then 1 else 0 : Byte) = if a.toNat + b.toNat > 255 then 1 else 0 := by
  simp only [carryFlag, decide_eq_true_eq]

theorem noBorrowFlag_value (a b : Byte) :
    (if noBorrowFlag a b then 1 else 0 : Byte) = if a.toNat ≥ b.toNat then 1 else 0 := by
  simp only [noBorrowFlag, decide_eq_true_eq]

theorem byte_sub_toNat (a b : Byte) : (a - b).toNat = (a.toNat + 256 - b.toNat) % 256 := by
  have hb : b.toNat ≤ 256 := b.isLt.le
  rw [Nat.add_sub_assoc hb]
  exact BitVec.toNat_sub' a b

/-- SHIFT_USES_VY is false on this hardware (R100, R102). -/
theorem shiftOperand_eq (x y : RegIx) (s : State) : shiftOperand x y s = s.getV x := rfl

theorem shiftRight_one_toNat (a : Byte) : (a >>> 1).toNat = a.toNat / 2 := by
  rw [BitVec.toNat_ushiftRight, Nat.shiftRight_one]

theorem shiftLeft_one_toNat (a : Byte) : (a <<< 1).toNat = 2 * a.toNat % 256 := by
  rw [BitVec.toNat_shiftLeft, Nat.shiftLeft_eq, Nat.pow_one, Nat.mul_comm]

theorem shiftedOutRight_toNat (a : Byte) : (shiftedOutRight a).toNat = a.toNat % 2 := by
  rw [shiftedOutRight, BitVec.getLsbD, Nat.toNat_testBit, Nat.pow_zero, Nat.div_one]

theorem shiftedOutLeft_toNat (a : Byte) : (shiftedOutLeft a).toNat = a.toNat / 128 := by
  have ha : a.toNat / 128 < 2 := Nat.div_lt_of_lt_mul a.isLt
  rw [shiftedOutLeft, BitVec.getLsbD, Nat.toNat_testBit]
  exact Nat.mod_eq_of_lt ha

end Sys2Proof.Machine

open Sys2Proof Sys2Proof.Machine

/-- Settles O29: the sum of two bytes is taken modulo 256, and the carry is written after it. -/
theorem addSetsCarry : Obligations.AddSetsCarry :=
  fun s x _ => writeResultAndFlag_completes s x (BitVec.toNat_add _ _) (carryFlag_value _ _)

/-- Settles O30: SUBN is SUB with its operands the other way round, in the result and in the flag. -/
theorem subtractsSetNoBorrow : Obligations.SubtractsSetNoBorrow :=
  fun s x _ => ⟨writeResultAndFlag_completes s x (byte_sub_toNat _ _) (noBorrowFlag_value _ _),
    writeResultAndFlag_completes s x (byte_sub_toNat _ _) (noBorrowFlag_value _ _)⟩

/-- Settles O31: the operand of both shifts is VX, so y plays no part. -/
theorem shiftsMoveOneBitOut : Obligations.ShiftsMoveOneBitOut := by
  intro s x y
  simp only [exec, execShrVx, execShlVx, shiftOperand_eq]
  exact ⟨writeResultAndFlag_completes_bit s x (shiftRight_one_toNat _) (shiftedOutRight_toNat _),
    writeResultAndFlag_completes_bit s x (shiftLeft_one_toNat _) (shiftedOutLeft_toNat _)⟩

/-- Settles O27: both write a result and no flag; the sum of two bytes is taken modulo 256. -/
theorem immediateLoadAndAdd : Obligations.ImmediateLoadAndAdd := by
  intro s x nn
  obtain ⟨t, ht, hsum, hrest⟩ := writeResult_completes s x (s.getV x + nn)
  exact ⟨writeResult_completes s x nn, t, ht, hsum ▸ BitVec.toNat_add _ _, hrest⟩

/-- Settles O28: all four write a result and no flag. -/
theorem copyAndLogic : Obligations.CopyAndLogic :=
  fun s x _ => ⟨writeResult_completes s x _, writeResult_completes s x _, writeResult_completes s x _,
    writeResult_completes s x _⟩
end

section
/-! PROOFS of 42_index_jump_random.md: the three writers of I (O32) and the random byte (O33). How I is written is said once;
each instruction then owes the number that I gets. -/

namespace Sys2Proof.Machine

/-! ### How the index register is written (R26) -/

theorem changesOnlyIPc_setI_advance (s : State) (a : Word) : ChangesOnlyIPc s (s.setI a).advance := ⟨rfl, fun _ => rfl⟩

/-- I gets the word `a`, as the number `n`. -/
theorem setI_advance_completes (s : State) {a : Word} {n : Nat} (ha : a.toNat = n) :
    ∃ t, (.next (s.setI a).advance : Result) = .next t ∧ t.i.toNat = n ∧ t.pc = s.pc + 2 ∧ ChangesOnlyIPc s t :=
  ⟨_, rfl, ha, rfl, changesOnlyIPc_setI_advance s a⟩

/-! ### What I gets, as a number (R117, R118) -/

theorem word_add_byte_toNat (a : Word) (b : Byte) : (a + b.setWidth 16).toNat = (a.toNat + b.toNat) % 65536 := by
  rw [BitVec.toNat_add, BitVec.toNat_setWidth_of_le (by decide)]

/-- FONT begins at address 0 and VX is not masked on this hardware (FONT_INDEX_MASK is none). -/
theorem glyphAddress_eq (v : Byte) : glyphAddress v = BitVec.ofNat 16 (5 * v.toNat) := by
  simp only [glyphAddress, glyphIndex, Config.fontIndexMask, Config.fontBase, Config.fontGlyphBytes, Nat.zero_add]

/-- The greatest glyph address, 5 · 255, is far below 65536, so nothing wraps. -/
theorem glyphAddress_toNat (v : Byte) : (glyphAddress v).toNat = 5 * v.toNat := by
  have hv : 5 * v.toNat < 2 ^ 16 := by omega
  rw [glyphAddress_eq, BitVec.toNat_ofNat, Nat.mod_eq_of_lt hv]

end Sys2Proof.Machine

open Sys2Proof Sys2Proof.Machine

/-- Settles O32: each writes I and advances; the three differ in the number I gets. -/
theorem indexRegisterWrites : Obligations.IndexRegisterWrites :=
  fun s _ nnn => ⟨setI_advance_completes s (addressOf_toNat nnn), setI_advance_completes s (word_add_byte_toNat _ _),
    setI_advance_completes s (glyphAddress_toNat _)⟩

/-- Settles O33: RND writes the masked byte as a result and no flag, whatever byte the port holds. -/
theorem randomByteIsMasked : Obligations.RandomByteIsMasked :=
  fun s x nn => writeResult_completes s x (s.rndPort &&& nn)
end

section
/-! PROOFS of 43_draw.md: DRW (O34) and the same sprite drawn twice (O35). A pixel changes exactly when the sprite covers it,
and VF is 1 exactly when a covered pixel was on; both obligations follow from these two facts about `drawn`. -/

namespace Sys2Proof.Machine

/-! ### What a completed DRW does (R106, R107, R108) -/

/-- The sprite that DXYN draws in s has a 1 bit on pixel (px, py). -/
abbrev DrawCovers (x y : RegIx) (n : Nibble) (s : State) : Fin 64 → Fin 32 → Prop :=
  SpriteCovers s s.i.toNat n.toNat (s.getV x).toNat (s.getV y).toNat

/-- The state in which DXYN completes. -/
def drawn (x y : RegIx) (n : Nibble) (s : State) : State :=
  (({ s with fb := (drawSprite x y n s).1 } : State).setFlag (drawSprite x y n s).2).advance

theorem exec_drwVxVyN_inside {s : State} {n : Nibble} (h : n = 0 ∨ s.i.toNat + n.toNat ≤ 4096) (x y : RegIx) :
    exec (.drwVxVyN x y n) s = .next (drawn x y n s) :=
  guardRange_inside (h.imp_left (congrArg BitVec.toNat))

theorem exec_drwVxVyN_outside {s : State} {n : Nibble} (h0 : n ≠ 0) (h : 4096 < s.i.toNat + n.toNat) (x y : RegIx) :
    exec (.drwVxVyN x y n) s = .next (HaltedWith s .memoryRange (encode (.drwVxVyN x y n)) (max s.i.toNat 4096)) :=
  guardRange_outside (fun e => h0 (BitVec.eq_of_toNat_eq e)) h

/-- The covered pixels, as the columns and rows of the drawing loops. -/
theorem spriteCovers_iff {s : State} {a n : Nat} {x0 y0 : Byte} {px : Fin 64} {py : Fin 32} :
    SpriteCovers s a n x0.toNat y0.toNat px py ↔
      ∃ r < n, ∃ b < 8, spriteBit (s.readMem (a + r)) b = true ∧ px = spriteColumn x0 b ∧ py = spriteRow y0 r := by
  simp only [SpriteCovers, spriteBit_eq_true, spriteColumn, spriteRow, Fin.ext_iff, exists_and_left]

theorem pixel_drawn_ne {x y : RegIx} {n : Nibble} {s : State} {px : Fin 64} {py : Fin 32} :
    pixel (drawn x y n s).fb px py ≠ pixel s.fb px py ↔ DrawCovers x y n s px py :=
  (pixel_drawRows_ne s _ _ _ (Nat.le_of_lt_succ n.isLt) px py).trans spriteCovers_iff.symm

theorem pixel_drawn_of_covers {x y : RegIx} {n : Nibble} {s : State} {px : Fin 64} {py : Fin 32}
    (h : DrawCovers x y n s px py) : pixel (drawn x y n s).fb px py = !pixel s.fb px py :=
  Bool.eq_not.2 (pixel_drawn_ne.2 h)

theorem pixel_drawn_of_not_covers {x y : RegIx} {n : Nibble} {s : State} {px : Fin 64} {py : Fin 32}
    (h : ¬DrawCovers x y n s px py) : pixel (drawn x y n s).fb px py = pixel s.fb px py :=
  not_ne_iff.1 (mt pixel_drawn_ne.1 h)

theorem hit_drawSprite {x y : RegIx} {n : Nibble} {s : State} :
    (drawSprite x y n s).2 = true ↔ ∃ px py, DrawCovers x y n s px py ∧ pixel s.fb px py = true := by
  simp only [DrawCovers, spriteCovers_iff]
  refine (hit_drawRows s _ _ _ (Nat.le_of_lt_succ n.isLt)).trans ⟨?_, ?_⟩
  · rintro (h | ⟨r, hr, b, hb, hbit, hon⟩)
    · exact nomatch h
    · exact ⟨_, _, ⟨r, hr, b, hb, hbit, rfl, rfl⟩, hon⟩
  · rintro ⟨_, _, ⟨r, hr, b, hb, hbit, rfl, rfl⟩, hon⟩
    exact .inr ⟨r, hr, b, hb, hbit, hon⟩

theorem getV_drawn_F (x y : RegIx) (n : Nibble) (s : State) :
    (drawn x y n s).getV 0xF = if (drawSprite x y n s).2 then 1 else 0 :=
  State.getV_setV_self _ _ _

theorem getV_drawn_of_ne (x y : RegIx) (n : Nibble) (s : State) {r : RegIx} (hr : r ≠ 0xF) :
    (drawn x y n s).getV r = s.getV r :=
  State.getV_setV_of_ne hr

theorem flag_drawn_eq_one {x y : RegIx} {n : Nibble} {s : State} :
    (drawn x y n s).getV 0xF = 1 ↔ ∃ px py, DrawCovers x y n s px py ∧ pixel s.fb px py = true := by
  rw [getV_drawn_F, ← hit_drawSprite]
  cases (drawSprite x y n s).2 <;> decide

theorem flag_drawn_eq_zero {x y : RegIx} {n : Nibble} {s : State}
    (h : ∀ px py, DrawCovers x y n s px py → pixel s.fb px py = false) : (drawn x y n s).getV 0xF = 0 := by
  have hmiss : ¬(drawSprite x y n s).2 = true := by
    rw [hit_drawSprite]
    rintro ⟨px, py, hc, hon⟩
    exact Bool.eq_false_iff.1 (h px py hc) hon
  rw [getV_drawn_F, if_neg hmiss]

/-! ### The same sprite at the same place (R110) -/

/-- Which pixels are covered depends only on I, memory and the two coordinates. -/
theorem drawCovers_congr {s s' : State} {x y x' y' : RegIx} (n : Nibble) (hi : s'.i = s.i)
    (hmem : ∀ a, s'.readMem a = s.readMem a) (hx : s'.getV x' = s.getV x) (hy : s'.getV y' = s.getV y) :
    DrawCovers x' y' n s' = DrawCovers x y n s := by
  funext px py
  simp only [DrawCovers, SpriteCovers, hi, hmem, hx, hy]

end Sys2Proof.Machine

open Sys2Proof Sys2Proof.Machine

/-- Settles O34: in range, a pixel differs from before exactly when it is covered; out of range, the range check halts. -/
theorem drawFlipsCoveredPixels : Obligations.DrawFlipsCoveredPixels :=
  fun s x y n => ⟨fun h => ⟨_, exec_drwVxVyN_inside h x y, fun _ _ => pixel_drawn_of_covers,
    fun _ _ => pixel_drawn_of_not_covers, flag_drawn_eq_one.2, flag_drawn_eq_zero,
    fun _ => getV_drawn_of_ne x y n s, rfl, fun _ => rfl⟩, fun h0 h => exec_drwVxVyN_outside h0 h x y⟩

/-- Settles O35: both draws cover the same pixels, so each pixel is flipped twice or not at all, and the second draw meets
a pixel that is on exactly where the first turned it on. -/
theorem drawTwiceRestores : Obligations.DrawTwiceRestores := by
  intro s t s' u x y x' y' n hrange ht hfb hi hmem hx hy hu
  rw [exec_drwVxVyN_inside hrange] at ht
  rw [exec_drwVxVyN_inside (hi ▸ hrange)] at hu
  cases ht
  cases hu
  have hcovers : DrawCovers x' y' n s' = DrawCovers x y n s := drawCovers_congr n hi hmem hx hy
  have hflag : (drawn x' y' n s').getV 0xF = 1 ↔
      ∃ px py, DrawCovers x y n s px py ∧ pixel (drawn x y n s).fb px py = true := by
    rw [flag_drawn_eq_one, hcovers, hfb]
  refine ⟨fun px py => ?_, ?_, fun hclear ⟨px, py, hc⟩ => ⟨flag_drawn_eq_zero fun px py _ => hclear px py, ?_⟩⟩
  · by_cases hc : DrawCovers x y n s px py
    · rw [pixel_drawn_of_covers (hcovers ▸ hc), hfb, pixel_drawn_of_covers hc, Bool.not_not]
    · rw [pixel_drawn_of_not_covers (hcovers ▸ hc), hfb, pixel_drawn_of_not_covers hc]
  · rw [hflag]
    refine exists₂_congr fun px py => and_congr_left fun hon => ?_
    rw [← pixel_drawn_ne, hon, ne_comm, Bool.eq_false_iff]
  · exact hflag.2 ⟨px, py, hc, by rw [pixel_drawn_of_covers hc, hclear, Bool.not_false]⟩
end

section
/-! PROOFS of 44_keys_timers_memory.md: the key skips (O36), the key wait (O37), the timer moves (O38), BCD (O39) and the
block store and load (O40, O41). What a key skip, a run of bytes stored and the range check's halt do is said once; each
instruction then owes its key levels, bytes or registers. -/

namespace Sys2Proof.Machine

/-! ### Key skips (R111, R112, R128) -/

theorem skipOnKey_completes {s : State} {x : RegIx} {k : Fin 16} (h : (s.getV x).toNat = k.val) (c : Bool) (w : Word) :
    ∃ t, skipOnKey x c w s = .next t ∧ t.pc = s.pc + (if s.keys[k.val] = c then 4 else 2) ∧ ChangesOnlyPc s t := by
  rw [skipOnKey, State.keyAt_of_lt h]
  exact ⟨_, rfl, s.skipIf_pc_of_iff beq_iff_eq, s.changesOnlyPc_skipIf _⟩

theorem skipOnKey_halts {s : State} {x : RegIx} (h : 15 < (s.getV x).toNat) (c : Bool) (w : Word) :
    skipOnKey x c w s = .next (HaltedWith s .keyIndexRange w (s.getV x).toNat) := by
  rw [skipOnKey, State.keyAt_of_ge h]
  rfl

/-! ### A number stored as a byte (R114, R119) -/

theorem byte_ofNat_toNat {n : Nat} (h : n < 256) : (BitVec.ofNat 8 n).toNat = n := Nat.mod_eq_of_lt h

theorem bcdDigits_toNat (v : Byte) :
    ((bcdDigits v).getD 0 0).toNat = v.toNat / 100 ∧ ((bcdDigits v).getD 1 0).toNat = v.toNat / 10 % 10 ∧
      ((bcdDigits v).getD 2 0).toNat = v.toNat % 10 :=
  ⟨byte_ofNat_toNat (by omega), byte_ofNat_toNat (by omega), byte_ofNat_toNat (by omega)⟩

/-! ### The key wait (R114) -/

theorem State.lowestKey_eq_some {s : State} {k : Fin 16} :
    s.lowestKey = some k ↔ s.keys[k.val] = true ∧ ∀ j : Fin 16, j < k → s.keys[j.val] = false := by
  rw [State.lowestKey, ← Fin.find?_eq_find?_finRange]
  exact Fin.find?_eq_some_iff

theorem exec_ldVxK_of_some {s : State} {k : Fin 16} (h : s.lowestKey = some k) (x : RegIx) :
    exec (.ldVxK x) s = writeResult x (BitVec.ofNat 8 k.val) s := by
  rw [exec, execLdVxK, h]

theorem exec_ldVxK_of_none {s : State} (h : s.lowestKey = none) (x : RegIx) : exec (.ldVxK x) s = .next s := by
  rw [exec, execLdVxK, h]

/-- With or without a key, FX0A does not halt. -/
theorem exec_ldVxK_status (s : State) (x : RegIx) : ∃ t, exec (.ldVxK x) s = .next t ∧ t.status = s.status := by
  cases h : s.lowestKey with
  | none => exact ⟨s, exec_ldVxK_of_none h x, rfl⟩
  | some k => exact ⟨_, exec_ldVxK_of_some h x, rfl⟩

/-! ### A run of bytes stored (R119, R120) -/

theorem State.readMem_writeBytes_inside {s : State} {a k : Nat} {bs : List Byte} (hfit : a + bs.length ≤ Config.memSize)
    (hk : k < bs.length) : (s.writeBytes a bs).readMem (a + k) = bs.getD k 0 := by
  rw [State.readMem_writeBytes hfit, if_pos (by omega), Nat.add_sub_cancel_left]

theorem State.readMem_writeBytes_outside {s : State} {a c : Nat} {bs : List Byte} (hfit : a + bs.length ≤ Config.memSize)
    (hc : c < a ∨ a + bs.length ≤ c) : (s.writeBytes a bs).readMem c = s.readMem c := by
  rw [State.readMem_writeBytes hfit, if_neg (by omega)]

theorem State.writeBytes_advance_frame (s : State) (a : Nat) (bs : List Byte) :
    (s.writeBytes a bs).advance = { s with mem := (s.writeBytes a bs).advance.mem, pc := s.pc + 2 } := by
  rw [State.writeBytes_eq]
  rfl

/-! ### The block transfers (R120, R121): I is kept, as LOADSTORE_INCREMENTS_I is false on this hardware -/

theorem exec_ldMemVx_keeps_I {s : State} {x : RegIx} (h : s.i.toNat + x.toNat < 4096) :
    exec (.ldMemVx x) s = .next (s.writeBytes s.i.toNat (s.regsUpTo x)).advance := by
  rw [exec_ldMemVx_inside h, State.writeBytes_eq]
  rfl

theorem exec_ldVxMem_inside {s : State} {x : RegIx} (h : s.i.toNat + x.toNat < 4096) :
    exec (.ldVxMem x) s = .next (s.loadRegs s.i.toNat (x.toNat + 1)).advance := by
  rw [exec, execLdVxMem, guardRange_inside (.inr h), State.loadRegs_eq]
  rfl

theorem State.changesOnlyVPc_loadRegs_advance (s : State) (a k : Nat) : ChangesOnlyVPc s (s.loadRegs a k).advance := by
  rw [State.loadRegs_eq]
  exact ⟨rfl, fun _ => rfl⟩

theorem State.loadRegs_advance_pc (s : State) (a k : Nat) : (s.loadRegs a k).advance.pc = s.pc + 2 := by
  rw [State.loadRegs_eq]
  rfl

/-- The range check of an instruction that touches the bytes from `base` to `base + last`, when the last is outside. -/
theorem guardRange_halts {base last : Nat} (h : 4096 ≤ base + last) (w : Word) (s t : State) :
    guardRange base (last + 1) w s t = .next (HaltedWith s .memoryRange w (max base 4096)) :=
  guardRange_outside (Nat.succ_ne_zero last) (Nat.lt_succ_of_le h)

end Sys2Proof.Machine

open Sys2Proof Sys2Proof.Machine

/-- Settles O36: SKNP skips at the other level of the key, so its two offsets are the other way round. -/
theorem keySkips : Obligations.KeySkips := by
  refine fun s x => ⟨fun k hk => ⟨skipOnKey_completes hk true _, ?_⟩,
    fun h => ⟨skipOnKey_halts h true _, skipOnKey_halts h false _⟩, exec_ldVxK_status s x⟩
  have hsknp := skipOnKey_completes hk false (encode (.sknpVx x))
  simp only [← Bool.not_eq_true, ite_not] at hsknp
  exact hsknp

/-- Settles O37: the first key found in ascending order is the lowest, and its number fits in a byte. -/
theorem keyWaitCapturesLowest : Obligations.KeyWaitCapturesLowest := by
  refine fun s x => ⟨fun k hdown hlow => ?_, fun h => exec_ldVxK_of_none (State.lowestKey_eq_none.2 h) x⟩
  rw [exec_ldVxK_of_some (State.lowestKey_eq_some.2 ⟨hdown, hlow⟩)]
  obtain ⟨t, ht, hx, hrest⟩ := writeResult_completes s x (BitVec.ofNat 8 k.val)
  exact ⟨t, ht, hx ▸ byte_ofNat_toNat (by omega), hrest⟩

/-- Settles O38: FX07 writes a result and no flag; the other two write their one timer. -/
theorem timerRegisterMoves : Obligations.TimerRegisterMoves :=
  fun s x => ⟨writeResult_completes s x s.dt, ⟨_, rfl, rfl, fun _ => rfl⟩, ⟨_, rfl, rfl, fun _ => rfl⟩⟩

/-- Settles O39: the three bytes stored from I on are the digits; out of range, the check halts before any is stored. -/
theorem bcdStoresThreeDigits : Obligations.BcdStoresThreeDigits := by
  refine fun s x => ⟨fun h => ⟨_, exec_ldBVx_inside h, ?_⟩, fun h => guardRange_halts h _ s _⟩
  obtain ⟨hhundreds, htens, hones⟩ := bcdDigits_toNat (s.getV x)
  have hfit : s.i.toNat + (bcdDigits (s.getV x)).length ≤ Config.memSize := h
  have hdigit {k : Nat} (hk : k < 3) := congrArg BitVec.toNat (State.readMem_writeBytes_inside (s := s) hfit hk)
  refine ⟨?_, ?_, ?_, fun a ha => State.readMem_writeBytes_outside hfit ha, s.writeBytes_advance_frame _ _⟩
  · exact (hdigit (k := 0) (by decide)).trans hhundreds
  · exact (hdigit (k := 1) (by decide)).trans htens
  · exact (hdigit (k := 2) (by decide)).trans hones

/-- Settles O40: the bytes stored from I on are V0..VX; out of range, the check halts before any is stored. -/
theorem blockStoreCopiesRegisters : Obligations.BlockStoreCopiesRegisters := by
  refine fun s x => ⟨fun h => ⟨_, exec_ldMemVx_keeps_I h, ?_⟩, fun h => guardRange_halts h _ s _⟩
  have hlen := s.length_regsUpTo x
  have hfit : s.i.toNat + (s.regsUpTo x).length ≤ Config.memSize := hlen ▸ h
  refine ⟨fun r hr => ?_, fun a ha => ?_, s.writeBytes_advance_frame _ _⟩
  · rw [State.readMem_advance, State.readMem_writeBytes_inside hfit (by omega), s.getD_regsUpTo hr]
  · exact State.readMem_writeBytes_outside hfit (by omega)

/-- Settles O41: the registers loaded are V0..VX; out of range, the check halts before any is loaded. -/
theorem blockLoadCopiesMemory : Obligations.BlockLoadCopiesMemory := by
  refine fun s x => ⟨fun h => ⟨_, exec_ldVxMem_inside h, ?_⟩, fun h => guardRange_halts h _ s _⟩
  have hreg := s.getV_loadRegs s.i.toNat (x.toNat + 1) x.isLt
  refine ⟨fun r hr => ?_, fun r hr => ?_, s.loadRegs_advance_pc _ _, s.changesOnlyVPc_loadRegs_advance _ _⟩
  · rw [State.getV_advance, hreg, if_pos (Nat.lt_succ_of_le hr)]
  · rw [State.getV_advance, hreg, if_neg (by omega)]
end

section
/-! PROOFS of 60_exceptions.md: the halts of a step (O16, O18, O15, O17), what follows a halt (O19), totality (O20), the
causes (O47), and the clock: one tick (O48), the synchronizer (O49, O50) and the rate (O52). -/

namespace Sys2Proof.Machine

/-! ### What one step answers, by the state it starts from (R142) -/

theorem step_of_halted {s : State} (h : s.status ≠ .running) : step s = .next s :=
  if_neg (mt Status.isRunning_iff.1 h)

theorem step_of_quit {s : State} (hr : s.status = .running) (hq : (nextInput s).quit = true) :
    step s = .next (HaltedWith (poll s) .quit 0 0) :=
  (if_pos (Status.isRunning_iff.2 hr)).trans (if_pos hq)

theorem step_of_instructionStep {s t : State} (hr : s.status = .running) (hq : (nextInput s).quit = false)
    (ht : instructionStep (poll s) = .next t) : step s = .next (clockBookkeeping (nextInput s).elapsedNs t) := by
  rw [step, loopIteration, if_pos (Status.isRunning_iff.2 hr), hq, ht]
  rfl

/-- A halt in the instruction step ends the iteration: the clock bookkeeping is skipped. -/
theorem step_of_instructionStep_halt {s : State} {c : HaltCause} {w : Word} {info : Nat} (hr : s.status = .running)
    (hq : (nextInput s).quit = false) (h : instructionStep (poll s) = .next ((poll s).halt c w info)) :
    step s = .next (HaltedWith (poll s) c w info) := by
  rw [step_of_instructionStep hr hq h, clockBookkeeping_halted Status.noConfusion]
  rfl

theorem run_succ_of_step {M : Host.Core} {s t : M.State} (h : M.step s = .next t) (n : Nat) :
    M.run (n + 1) s = M.run n t := by
  rw [Host.Core.run, h]

theorem run_of_halted {s : State} (h : s.status ≠ .running) (n : Nat) : core.run n s = .next s := by
  induction n with
  | zero => rfl
  | succ n ih => exact (run_succ_of_step (M := core) (step_of_halted h) n).trans ih

/-! ### The halts of the fetch and of the decoder (R124, R127) -/

theorem instructionStep_of_decode_error {s : State} {e : DecodeError} (hpc : s.pc.toNat < 0xFFF)
    (hd : decodeWord s.fetchWord = .error e) : instructionStep s = .next (s.halt .invalidOpcode s.fetchWord 0) := by
  have hin : s.fetchInRange = true := decide_eq_true (Nat.succ_lt_succ hpc)
  rw [instructionStep, if_pos hin, hd]

theorem instructionStep_of_pc_ge {s : State} (hpc : 0xFFF ≤ s.pc.toNat) :
    instructionStep s = .next (s.halt .memoryRange 0 (max s.pc.toNat Config.memSize)) :=
  if_neg (mt of_decide_eq_true (Nat.not_lt_of_le (Nat.succ_le_succ hpc)))

/-- A fetch out of range names the lowest out-of-range address of the two bytes it would read. -/
theorem max_pc_memSize_of_isLeast {pc a : Nat} (h : IsLeast { b | (b = pc ∨ b = pc + 1) ∧ 4096 ≤ b } a) :
    max pc Config.memSize = a := by
  obtain ⟨⟨hpc, ha⟩, hlow⟩ := h
  have hmin : 4096 ≤ pc → a ≤ pc := fun hp => hlow ⟨.inl rfl, hp⟩
  simp only [Config.memSize]
  omega

theorem guardRange_of_isLeast {base len a : Nat} (h : IsLeast { b | base ≤ b ∧ b < base + len ∧ 4096 ≤ b } a) (w : Word)
    (s t : State) : guardRange base len w s t = .next (HaltedWith s .memoryRange w a) := by
  rw [guardRange, outOfRange_eq_some.2 h]
  rfl

/-! ### A next state, always (R122, R134) -/

theorem guardRange_answers (base len : Nat) (w : Word) (s t : State) : ∃ u, guardRange base len w s t = .next u := by
  rcases guardRange_cases base len w s t with ⟨-, e⟩ | ⟨-, -, e⟩ <;> exact ⟨_, e⟩

theorem skipOnKey_answers (x : RegIx) (c : Bool) (w : Word) (s : State) : ∃ t, skipOnKey x c w s = .next t := by
  rcases skipOnKey_cases x c w s with ⟨_, -, e⟩ | ⟨-, e⟩ <;> exact ⟨_, e⟩

theorem exec_answers (i : Instr) (s : State) : ∃ t, exec i s = .next t := by
  cases i
  case ret =>
    rcases s.pop_cases with ⟨j, hj, -⟩ | ⟨h0, -⟩
    · exact ⟨_, exec_ret_of_sp_pos hj⟩
    · exact ⟨_, exec_ret_of_sp_zero h0⟩
  case callNnn nnn =>
    rcases s.push_cases s.pc with ⟨hlt, -⟩ | ⟨hfull, -⟩
    · exact ⟨_, exec_callNnn_of_sp_lt (j := ⟨s.sp.val, hlt⟩) rfl nnn⟩
    · exact ⟨_, exec_callNnn_of_sp_full hfull nnn⟩
  case skpVx | sknpVx => exact skipOnKey_answers ..
  case ldVxK x =>
    obtain ⟨t, ht, -⟩ := exec_ldVxK_status s x
    exact ⟨t, ht⟩
  case drwVxVyN | ldBVx | ldMemVx | ldVxMem => exact guardRange_answers ..
  case cls | jpNnn | seVxNn | sneVxNn | seVxVy | sneVxVy | ldINnn | jpV0Nnn | ldDtVx | ldStVx | addIVx | ldFVx =>
    exact ⟨_, rfl⟩
  case ldVxNn | addVxNn | ldVxVy | orVxVy | andVxVy | xorVxVy | rndVxNn | ldVxDt => exact ⟨_, writeResult_eq ..⟩
  case addVxVy | subVxVy | shrVx | subnVxVy | shlVx => exact ⟨_, writeResultAndFlag_eq ..⟩

theorem instructionStep_answers (s : State) : ∃ t, instructionStep s = .next t := by
  rcases instructionStep_cases s with ⟨-, e⟩ | ⟨-, _, -, e⟩ | ⟨-, i, -, e⟩
  · exact ⟨_, e⟩
  · exact ⟨_, e⟩
  · exact e ▸ exec_answers i s

theorem step_answers (s : State) : ∃ t, step s = .next t := by
  by_cases hr : s.status = .running
  · cases hq : (nextInput s).quit with
    | true => exact ⟨_, step_of_quit hr hq⟩
    | false =>
      obtain ⟨t, ht⟩ := instructionStep_answers (poll s)
      exact ⟨_, step_of_instructionStep hr hq ht⟩
  · exact ⟨s, step_of_halted hr⟩

/-! ### A status changes by a halt, which writes nothing else (R129) -/

theorem HaltReason.ne_quit {i : Instr} {s : State} {c : HaltCause} {info : Nat} (h : HaltReason i s c info) :
    c ≠ .quit := by
  rcases h with ⟨rfl, -⟩ | ⟨rfl, -⟩ | ⟨rfl, -⟩ | ⟨rfl, -⟩ <;> decide

/-- The instruction step keeps the status, or is a halt, and never for Quit. -/
theorem instructionStep_status_cases {s t : State} (h : instructionStep s = .next t) :
    t.status = s.status ∨ ∃ c w info, c ≠ .quit ∧ t = s.halt c w info := by
  rcases instructionStep_cases s with ⟨-, e⟩ | ⟨-, _, -, e⟩ | ⟨-, i, -, e⟩ <;> rw [e] at h
  · cases h; exact .inr ⟨_, _, _, by decide, rfl⟩
  · cases h; exact .inr ⟨_, _, _, by decide, rfl⟩
  · rcases exec_cases i s t h with ⟨c, info, rfl, hreason⟩ | ⟨hstatus, -⟩
    · exact .inr ⟨c, _, info, hreason.ne_quit, rfl⟩
    · exact .inl hstatus

@[simp] theorem clockBookkeeping_status (e : Nat) (t : State) : (clockBookkeeping e t).status = t.status := by
  rw [clockBookkeeping_eq]
  split <;> rfl

/-- A step from a running state leaves it running, or halts right after the poll; for Quit, only when asked to. -/
theorem step_status_cases {s t : State} (hr : s.status = .running) (h : step s = .next t) :
    t.status = .running ∨ ∃ c w info, (c = .quit → (nextInput s).quit = true) ∧ t = (poll s).halt c w info := by
  rcases step_cases h with ⟨hn, -⟩ | ⟨-, hq, rfl⟩ | ⟨-, -, u, hu, rfl⟩
  · exact absurd hr hn
  · exact .inr ⟨_, _, _, fun _ => hq, rfl⟩
  · rcases instructionStep_status_cases hu with hstatus | ⟨c, w, info, hc, rfl⟩
    · exact .inl (by rw [clockBookkeeping_status, hstatus, poll_status, hr])
    · exact .inr ⟨c, w, info, fun hquit => absurd hquit hc, clockBookkeeping_halted Status.noConfusion⟩

/-! ### The synchronizer (R137) -/

theorem ticksOf_eq {k total : Nat} (hlo : k * 1000000000 < total ∨ k = 0) (hhi : total ≤ (k + 1) * 1000000000) :
    ticksOf total = k := by
  simp only [ticksOf, Config.tick60]
  omega

/-- The time an update leaves over counts on towards the ticks of the next. -/
theorem ticksOf_add (total more : Nat) :
    ticksOf total + ticksOf (total - ticksOf total * Config.tick60 + more) = ticksOf (total + more) := by
  simp only [ticksOf, Config.tick60]
  omega

theorem ticksOf_mul_le (total : Nat) : ticksOf total * Config.tick60 ≤ total := by
  rcases (ticksOf_bounds total).1 with h | h
  · exact h.le
  · rw [h, Nat.zero_mul]
    exact Nat.zero_le _

end Sys2Proof.Machine

open Sys2Proof Sys2Proof.Machine

/-- Settles O16: the fetch and the range check each name the least address out of range. -/
theorem memoryRangeHalts : Obligations.MemoryRangeHalts := by
  refine ⟨fun s a hr hq hpc ha => ?_, fun s a x y n ha => guardRange_of_isLeast ha _ s _,
    fun s a x ha => guardRange_of_isLeast ha _ s _, fun s a x ha => ?_⟩
  · have hhalt := instructionStep_of_pc_ge (s := poll s) hpc
    rw [poll_pc, max_pc_memSize_of_isLeast ha] at hhalt
    exact step_of_instructionStep_halt hr hq hhalt
  · have hle : IsLeast { b | s.i.toNat ≤ b ∧ b < s.i.toNat + (x.toNat + 1) ∧ 4096 ≤ b } a := by
      simpa only [← Nat.add_assoc, Nat.lt_add_one_iff] using ha
    exact ⟨guardRange_of_isLeast hle _ s _, guardRange_of_isLeast hle _ s _⟩

/-- Settles O18: a step that leaves Running is a halt of the polled state, and a halted state stands still. -/
theorem haltIsPreciseAndFinal : Obligations.HaltIsPreciseAndFinal := by
  intro s t hr hstep hhalted
  obtain ⟨c, w, info, -, rfl⟩ := (step_status_cases hr hstep).resolve_left hhalted
  exact ⟨rfl, ⟨c, w, info, rfl⟩, run_of_halted hhalted⟩

/-- Settles O19, by induction on the number of steps. -/
theorem haltedSessionStaysHalted : Obligations.HaltedSessionStaysHalted :=
  fun _ n h => run_of_halted h n

/-- Settles O20: every shared part of the meanings answers, hence every instruction, hence every step. -/
theorem everyStepAnswers : Obligations.EveryStepAnswers :=
  ⟨step_answers, exec_answers⟩

/-- Settles O47: a completion keeps the status, and a halt has its reason. -/
theorem instructionsHaltOnlyForTheirCauses : Obligations.InstructionsHaltOnlyForTheirCauses := by
  intro i s t h hne
  rcases exec_cases i s t h with ⟨c, info, -, hreason⟩ | ⟨hstatus, -⟩
  · rcases hreason with ⟨-, -, hsp, hi⟩ | ⟨-, -, hsp, hi⟩ | ⟨-, x, hinfo, hlt, hi⟩ | ⟨-, -, hrange⟩
    · exact .inl ⟨hsp, hi⟩
    · exact .inr (.inl ⟨hsp, hi⟩)
    · exact .inr (.inr (.inl ⟨x, hinfo ▸ hlt, hi⟩))
    · exact .inr (.inr (.inr hrange))
  · exact absurd hstatus hne

/-- Settles O49: the closed form of `sync`, with k the number of ticks that the two bounds leave. -/
theorem syncDeliversExactTicks : Obligations.SyncDeliversExactTicks := by
  intro s e k hlo hhi
  have hk : ticksOf (s.acc60 + 60 * e) = k := ticksOf_eq hlo hhi
  have hle := ticksOf_mul_le (s.acc60 + 60 * e)
  rw [sync_eq, hk]
  rw [hk] at hle
  exact ⟨decBy_toNat k s.dt, decBy_toNat k s.st, Nat.sub_add_cancel hle, rfl⟩

/-- Settles O50: the ticks of the two updates add up, and what is left over is the whole time less their periods. -/
theorem syncHasNoDrift : Obligations.SyncHasNoDrift := by
  intro s d e
  have hticks := ticksOf_add (s.acc60 + 60 * d) (60 * e)
  have hle := ticksOf_mul_le (s.acc60 + 60 * d)
  have htotal : s.acc60 + 60 * (d + e) = s.acc60 + 60 * d + 60 * e := by omega
  simp only [sync_eq, decBy_decBy, htotal, ← hticks, Nat.add_mul]
  congr 1
  omega

/-- Settles O15: the poll leaves PC and the fetched word, so the decoder's halt is that of the polled state. -/
theorem invalidWordHalts : Obligations.InvalidWordHalts :=
  fun s _ hr hq hpc hd =>
    ⟨step_of_instructionStep_halt hr hq (instructionStep_of_decode_error (s := poll s) hpc hd), rfl⟩

/-- Settles O17: a quit comes before the instruction step, and without one no halt is for Quit. -/
theorem quitStopsBeforeTheStep : Obligations.QuitStopsBeforeTheStep := by
  refine fun s hr => ⟨fun hq => ⟨step_of_quit hr hq, rfl⟩, fun hq t hstep a w info hquit => ?_⟩
  rcases step_status_cases hr hstep with hrun | ⟨c, w', info', hc, rfl⟩
  · exact nomatch hrun.symm.trans hquit
  · cases hquit
    exact nomatch hq.symm.trans (hc rfl)

/-- Settles O48: each timer is floored on its own, and `tick` is the record update of the two. -/
theorem tickFloorsAtZero : Obligations.TickFloorsAtZero :=
  fun s => ⟨decFloor_toNat s.dt, decFloor_toNat s.st, rfl⟩

/-- Settles O52: the default is a successor, and the cycle is a quotient. -/
theorem rateAndCycle : Obligations.RateAndCycle := by
  refine ⟨fun n hn => ?_, rfl, rfl, Nat.succ_pos _, fun r hr => ⟨Nat.mul_div_le 1000000 r, Nat.lt_mul_div_succ 1000000 hr⟩⟩
  cases n with
  | zero => exact absurd hn (Nat.lt_irrefl 0)
  | succ n => rfl
end

section
/-! PROOFS of 70_reset_and_hazards.md: the timer cadence at 500 instructions per second (O51), read off the synchronizer's
own statements (O49, O50). -/

namespace Sys2Proof.Machine

/-- Without drift, equal updates in a row are one update over their whole time; at least one, since none at all would
leave whole periods in the accumulator. -/
theorem sync_iterate_succ (d n : Nat) (s : State) : (sync d)^[n + 1] s = sync ((n + 1) * d) s := by
  induction n with
  | zero => rw [Nat.zero_add, Nat.one_mul, Function.iterate_one]
  | succ n ih => rw [Function.iterate_succ_apply', ih, syncHasNoDrift, ← Nat.succ_mul]

end Sys2Proof.Machine

open Sys2Proof Sys2Proof.Machine

/-- Settles O51: the 500 sleeps are one update over a second, exactly 60 periods, of which the strict comparison holds
the last one back until any more time has passed. -/
theorem timerCadenceAt500 : Obligations.TimerCadenceAt500 := by
  intro s hacc
  have hsecond : (sync (1000 * Config.cycleUs 500))^[500] s = sync 1000000000 s := sync_iterate_succ _ 499 s
  rw [hsecond]
  obtain ⟨hdt, hst, hleft, -⟩ := syncDeliversExactTicks s 1000000000 59 (by omega) (by omega)
  have hperiod : (sync 1000000000 s).acc60 = 1000000000 := by omega
  refine ⟨hdt, hst, hperiod, fun e hpos hle => ?_⟩
  obtain ⟨hdt', hst', hleft', -⟩ := syncDeliversExactTicks (sync 1000000000 s) e 1 (by omega) (by omega)
  exact ⟨by omega, by omega, by omega⟩
end
